-- ==== Sys2Proof/Word.lean ====
section
/-! DEFINITION. The 32-bit word and the byte of the ndsbios CORE (00_scope.md R5, R7). Arithmetic on them stands in
Machine/Operands.lean. -/

namespace Sys2Proof

/-- A register or memory word, or a byte address: 32 bits, unsigned (R5 `XLEN`, `AWIDTH`; R7). -/
abbrev Word := BitVec 32

/-- A byte of memory: every byte has its own address (R50). -/
abbrev Byte := BitVec 8

end Sys2Proof
end

