-- ==== Sys2Proof/Config.lean ====
section
/-! DEFINITION. The free values of the model: what the spec calls `any value` (93_implementation_defined.md, U9, U13,
U14). Each is an opaque function of a draw number, kept as a plain counter in State, so no proof can rest on a value.
The platform parameters `Mapped` and `CORE_BASE` (R5) are plain data in State (Machine/State.lean). -/

namespace Sys2Proof

/-- The byte that draw number `draw` gives at a byte address: memory contents at reset (U14), destination words after
BUS_ERROR (U9, R69), and all memory after a model fault that ends an operation (U13, R37). -/
opaque Config.freeByte (draw address : Nat) : Byte

/-- The word that draw number `draw` gives in place `slot`: the registers after a model fault that ends an operation
(U13, R37). -/
opaque Config.freeWord (draw slot : Nat) : Word

/-- The flag that draw number `draw` gives in place `slot`: the validity flags after a model fault that ends an
operation (U13, R37). -/
opaque Config.freeFlag (draw slot : Nat) : Bool

end Sys2Proof
end

