-- ==== Sys2Proof/Machine/State.lean ====
section
/-! DEFINITION. The state of the machine: the block's registers and bookkeeping (10_state.md R20), the memory and the
platform it shares with the host (20_memory.md R50, R51), and the host's side of the interface (30_encoding.md R87). -/

namespace Sys2Proof.Machine

/-- A register with a validity flag: "a 32-bit value and a validity flag" (R22, R25). While the flag is off the register
holds no value the model defines: nothing reads `value` but `Reg.get?` (Ops.lean). -/
structure Reg where
  value : Word
  valid : Bool
  deriving DecidableEq, Repr

/-- The causes of a block fault (R201). -/
inductive Cause where
  /-- Code 1: a word written to CMD that is no command (R202). -/
  | illegalCommand
  /-- Code 2: an address operand that is not a multiple of 4 (R203). -/
  | misaligned
  /-- Code 3: a range that ends above 2^32 (R204). -/
  | addressWrap
  /-- Code 4: an access to a word that is not Mapped (R205). -/
  | busError
  deriving DecidableEq, Repr

/-- The reasons of a model fault (R200). -/
inductive Reason where
  /-- An operation read an invalid argument register (R206). -/
  | undefinedOperand
  /-- An operation's ranges overlap (R207). -/
  | precondition
  /-- The host read an invalid register, a reserved or unaligned offset, or at another width (R208). -/
  | hostUndefinedRead
  /-- The host wrote a reserved or unaligned offset, or at another width (R208). -/
  | hostUndefinedWrite
  deriving DecidableEq, Repr

/-- UNDEF: the set of model-fault reasons recorded so far, one flag for each of the four (R20, R207). -/
structure UndefSet where
  undefinedOperand : Bool
  precondition : Bool
  hostUndefinedRead : Bool
  hostUndefinedWrite : Bool
  deriving DecidableEq, Repr

/-- One word access of an operation, an entry of its access trace (R8, R64). -/
inductive Access where
  | read (address : Word)
  | write (address : Word)
  deriving DecidableEq, Repr

/-- What a byte that memory does not list reads as: a fixed byte, or the free value of a draw (U14). -/
inductive Background where
  | fixed (byte : Byte)
  | drawn (draw : Nat)
  deriving DecidableEq, Repr

/-- Memory: the listed bytes, by strictly rising address, and what every other byte reads as. No listed byte equals a
fixed background (`Memory.wf`, Ops.lean). -/
structure Memory where
  cells : List Host.Cell
  rest : Background
  deriving DecidableEq, Repr

/-- A range of `size` bytes from `base` on that the platform backs with ordinary memory. -/
structure Region where
  base : Nat
  size : Nat
  deriving DecidableEq, Repr

/-- The platform: the OPEN parameters `Mapped` and `CORE_BASE` (R5, R51, R58) as plain data. No step changes it. -/
structure Platform where
  regions : List Region
  coreBase : Option Word
  deriving DecidableEq, Repr

/-- A host statement (R87): the window by offset and width (R21, R29, R30), memory by address, and the reset input. -/
inductive HostStmt where
  /-- A write of `value` to the window at byte offset `offset`, `width` bits wide: `WR` is the one with width 32. -/
  | windowWrite (width : Nat) (offset : Word) (value : Word)
  /-- A read of the window at byte offset `offset`, `width` bits wide: `RD` is the one with width 32. -/
  | windowRead (width : Nat) (offset : Word)
  /-- `STW a, v`: an ordinary memory write outside any operation. -/
  | stw (address value : Word)
  /-- `LDW a`: the word at memory address a. -/
  | ldw (address : Word)
  /-- A host write of one byte of memory (R53). -/
  | stb (address : Word) (value : Byte)
  /-- A host read of one byte of memory (R53). -/
  | ldb (address : Word)
  /-- `RESET`: the reset input (R230, R231). -/
  | reset
  deriving DecidableEq, Repr

/-- The state of the machine. -/
structure State where
  /-- ARG0 (R22). -/
  arg0 : Reg
  /-- ARG1 (R22). -/
  arg1 : Reg
  /-- ARG2 (R22). -/
  arg2 : Reg
  /-- RESULT (R25). -/
  result : Reg
  /-- STATUS: FAULT in bit 0, FCAUSE in bits 7:4 (R27; Flags.lean). -/
  status : Word
  /-- FADDR (R28). -/
  faddr : Word
  /-- UNDEF: model bookkeeping, never cleared (R20, R207). -/
  undef : UndefSet
  /-- FAULTLOG: every block fault of the run, oldest first, never cleared (R20, R210). -/
  faultLog : List (Cause × Word)
  /-- The memory shared with the host (R50). -/
  mem : Memory
  /-- Which words are Mapped, and where the window is (R5). -/
  platform : Platform
  /-- The access trace of the operations, oldest first (R8, R64). -/
  trace : List Access
  /-- The host's statements still to come, the next one first (R63, R87). -/
  pending : List HostStmt
  /-- What the host's reads returned, oldest first: none where a read returned no value (R208, R220). -/
  replies : List (Option Word)
  /-- The number of the next free value: the model's own field (notes/assumptions/8.md). -/
  draws : Nat
  deriving DecidableEq, Repr

/-- The platform of 95_test_vectors.md section 2.1: Mapped from 0x00010000 up to 0x00040000, and no window in memory.
DESIGN CHOICE: `Mapped` and `CORE_BASE` are OPEN parameters (R5; notes/assumptions/3.md). -/
def Platform.ofVectors : Platform := ⟨[⟨0x00010000, 0x00030000⟩], none⟩

/-- The machine right after the first reset, the start of a run (R38, R220): ARG0-ARG2 and RESULT invalid, STATUS and
FADDR zero, UNDEF and FAULTLOG empty, memory's contents any value (U14). -/
def State.reset : State where
  arg0 := ⟨0#32, false⟩
  arg1 := ⟨0#32, false⟩
  arg2 := ⟨0#32, false⟩
  result := ⟨0#32, false⟩
  status := 0#32
  faddr := 0#32
  undef := ⟨false, false, false, false⟩
  faultLog := []
  mem := ⟨[], .drawn 0⟩
  platform := Platform.ofVectors
  trace := []
  pending := []
  replies := []
  draws := 1

/-- Why the machine stops. Block faults and model faults are not among these: the spec says what they leave, so they are
next states (R207, R210). -/
inductive Fault where
  /-- Raised by the host's own byte read or LDW where a byte it reads is not Mapped, or lies past 2^32: there is no memory
  to read (R50, R51). Safe: the model stops where a platform might answer. -/
  | hostReadUnmapped (address : Word)
  /-- Raised by the host's own byte write or STW where a byte it writes is not Mapped, or lies past 2^32: there is no
  memory to write (R50, R51). Safe: the model stops where a platform might go on. -/
  | hostWriteUnmapped (address : Word)
  deriving DecidableEq, Repr

/-- Why the machine refuses a command. -/
inductive Refusal where
  /-- Raised by an arm of exec that has no meaning yet; no arm is left so. Safe: the model stops. -/
  | notModelled (mnemonic : String)
  deriving DecidableEq, Repr

end Sys2Proof.Machine
end

