-- ==== Sys2Proof/Machine/Flags.lean ====
section
/-! DEFINITION. The block has no flags and no condition codes (10_state.md R32): no operation computes one. What it has
is the STATUS register; its fields and cause codes stand here (10_state.md R27, 60_exceptions.md R201). -/

namespace Sys2Proof.Machine

/-- The cause codes (R201). -/
def Cause.code : Cause → Word
  | .illegalCommand => 1#32
  | .misaligned => 2#32
  | .addressWrap => 3#32
  | .busError => 4#32

/-- The value STATUS takes when a block fault is recorded: FAULT = 1 and FCAUSE = the cause's code (R210). -/
def statusOf (c : Cause) : Word := 0x00000001#32 ||| (c.code <<< 4)

/-- STATUS.FAULT, bit 0 (R27). -/
def statusFault (status : Word) : Bool := status.getLsbD 0

/-- STATUS.FCAUSE, bits 7:4 (R27). -/
def statusCause (status : Word) : BitVec 4 := status.extractLsb' 4 4

/-- The legal values of STATUS: zero, and 0x1 OR (c << 4) for c in 1..4 (R27). -/
def statusLegal (status : Word) : Bool :=
  status = 0#32 || status = 0x11#32 || status = 0x21#32 || status = 0x31#32 || status = 0x41#32

/-- The STATUS value that a free word picks. After a model fault that ends an operation STATUS is undefined (R37), and
no value but the legal ones is ever read (R27, U17, U18): bit 0 of the free word picks FAULT and bits 2:1 the cause.
DEDUCED (notes/assumptions/7.md). -/
def statusOfDraw (draw : Word) : Word :=
  if draw.getLsbD 0 then
    if draw.getLsbD 1 then
      if draw.getLsbD 2 then statusOf .busError else statusOf .addressWrap
    else
      if draw.getLsbD 2 then statusOf .misaligned else statusOf .illegalCommand
  else 0#32

end Sys2Proof.Machine
end

