-- ==== Sys2Proof/Syntax.lean ====
section
/-! DEFINITION. The commands of the block: one constructor per row of spec/opcode_table.json (30_encoding.md R81, R82). -/

namespace Sys2Proof

/-- A command of the block. No format has an immediate field (R83): the operands of a command are argument registers.
MOVE.COPY and MOVE.FILL are MOVE with its mode selected by the control word (R160), and carry that word's COUNT field
(R82), a number of 32-bit words. -/
inductive Instr where
  /-- ROUND, command word 0x00000001: the round function once (R107). -/
  | round
  /-- DEC64, command word 0x00000002: decrypt one 64-bit block in place (R130). -/
  | dec64
  /-- MOVE, command word 0x00000003: copy or fill, selected by the control word in ARG2 (R160). -/
  | move
  /-- MOVE.COPY: MOVE with a control word whose FILL is 0 and whose COUNT is `count` (R161). -/
  | moveCopy (count : Word)
  /-- MOVE.FILL: MOVE with a control word whose FILL is 1 and whose COUNT is `count` (R162). -/
  | moveFill (count : Word)
  deriving DecidableEq, Repr

end Sys2Proof
end

