-- ==== Sys2Proof/WellFormed.lean ====
section
/-! DEFINITION. Which commands have an encoding: COUNT's bit 24 is always 0 (30_encoding.md R82, R89). -/

namespace Sys2Proof

/-- A COUNT that a control word can spell: its bit 24 is 0 (R82). -/
def countFits (count : Word) : Bool := !count.getLsbD 24

/-- A command that some pair of command word and control word spells. -/
def WellFormed : Instr → Bool
  | .round => true
  | .dec64 => true
  | .move => true
  | .moveCopy count => countFits count
  | .moveFill count => countFits count

end Sys2Proof
end

