-- ==== Sys2Proof/Decode.lean ====
section
/-! DEFINITION. The decoder of the two formats CMD and MOVCTL (30_encoding.md R80-R86) and the encoder written from the
same tables. -/

namespace Sys2Proof

/-- What a command word decodes to. -/
inductive Decoded where
  /-- One of the three commands of R81, or a mode of MOVE. -/
  | command (i : Instr)
  /-- Any other word: ILLEGAL_COMMAND (R80, R85). -/
  | illegalCommand
  deriving DecidableEq, Repr

/-- The words that make up a command as issued: the word written to CMD, and the control word that ARG2 holds where the
command is told with its mode (R82, R84). -/
structure Issue where
  command : Word
  control : Option Word
  deriving DecidableEq, Repr

/-- FILL = CTRL[24] of format MOVCTL (R82). -/
def controlFill (ctrl : Word) : Bool := ctrl.getLsbD 24

/-- COUNT = CTRL AND 0xFEFFFFFF of format MOVCTL, a number of words (R82). -/
def controlCount (ctrl : Word) : Word := ctrl &&& 0xFEFFFFFF#32

/-- The decoder of format CMD: the whole word is matched, and every other word is ILLEGAL_COMMAND (R80, R81, R85, R86). -/
def decodeCommand (c : Word) : Decoded :=
  if c = 0x00000001#32 then .command .round
  else if c = 0x00000002#32 then .command .dec64
  else if c = 0x00000003#32 then .command .move
  else .illegalCommand

/-- The decoder of format MOVCTL: every control word is legal (R82, R85). -/
def decodeControl (ctrl : Word) : Instr :=
  if controlFill ctrl then .moveFill (controlCount ctrl) else .moveCopy (controlCount ctrl)

/-- The decoder of an issued command: the command word, and for MOVE the mode of the control word where there is one
(R81, R82, R160). -/
def decode (e : Issue) : Decoded :=
  match decodeCommand e.command with
  | .command .move =>
    match e.control with
    | some ctrl => .command (decodeControl ctrl)
    | none => .command .move
  | d => d

/-- The words of a well-formed command, from the tables of R81 and R82. -/
def encode : Instr → Issue
  | .round => ⟨0x00000001#32, none⟩
  | .dec64 => ⟨0x00000002#32, none⟩
  | .move => ⟨0x00000003#32, none⟩
  | .moveCopy count => ⟨0x00000003#32, some count⟩
  | .moveFill count => ⟨0x00000003#32, some (count ||| 0x01000000#32)⟩

/-- The words of a row of spec/opcode_table.json: `w` is read as format CMD where it is one of the three command words
of R81, and otherwise as format MOVCTL, the control word of a MOVE whose command word is 0x00000003 (R82). The table
gives the two formats the same width, so the word alone tells them apart (notes/assumptions/2.md). -/
def tableIssue (nbits w : Nat) : Issue :=
  let word : Word := BitVec.ofNat 32 (w % 2 ^ nbits)
  match decodeCommand word with
  | .command _ => ⟨word, none⟩
  | .illegalCommand => ⟨0x00000003#32, some word⟩

/-- The command the decoder reads from a row's word, as spec/opcode_table.json numbers its bits. -/
def decodeTableWord (nbits w : Nat) : Option Instr :=
  match decode (tableIssue nbits w) with
  | .command i => some i
  | .illegalCommand => none

end Sys2Proof
end

