-- ==== Sys2Proof/Machine/Operands.lean ====
section
/-! DEFINITION. The 32-bit ALU, the operand forms and the address forms of the three operations (40_feistel_round.md
R100-R104, 20_memory.md R55-R57, 41_block_decrypt.md R133, 42_bulk_mover.md R165), and the constants of 00_scope.md R5. -/

namespace Sys2Proof.Machine

/-- The two modes of MOVE (R160). -/
inductive MoveMode where
  /-- FILL = 0 (R161). -/
  | copy
  /-- FILL = 1 (R162). -/
  | fill
  deriving DecidableEq, Repr

/-! ## The ALU -/

/-- add32: addition modulo 2^32, the carry out of bit 31 discarded (R100, R32). -/
def add32 (a b : Word) : Word := a + b

/-- xor32: bitwise exclusive or (R101). -/
def xor32 (a b : Word) : Word := a ^^^ b

/-- b0 = w[7:0] (R102). -/
def byte0 (w : Word) : Byte := w.extractLsb' 0 8

/-- b1 = w[15:8] (R102). -/
def byte1 (w : Word) : Byte := w.extractLsb' 8 8

/-- b2 = w[23:16] (R102). -/
def byte2 (w : Word) : Byte := w.extractLsb' 16 8

/-- b3 = w[31:24] (R102). -/
def byte3 (w : Word) : Byte := w.extractLsb' 24 8

/-! ## The key schedule (R5, R34) -/

/-- The schedule's length in bytes, 1042 words (R34). -/
def scheduleBytes : Nat := 0x1048

/-- The block's length in bytes, two words (R35). -/
def blockBytes : Nat := 8

/-- OFF_SA, the byte offset of S_A (R5, R103). -/
def offsetSA : Word := 0xC48#32

/-- OFF_SB, the byte offset of S_B (R5, R103). -/
def offsetSB : Word := 0x848#32

/-- OFF_SC, the byte offset of S_C (R5, R103). -/
def offsetSC : Word := 0x448#32

/-- OFF_SD, the byte offset of S_D (R5, R103). -/
def offsetSD : Word := 0x048#32

/-- The address of word `k` of a range: base + (k << 2), by add32 (R104, R133, R165). -/
def wordAddress (base : Word) (k : Nat) : Word := add32 base (BitVec.ofNat 32 k <<< 2)

/-- The address of an S-box entry: base + table offset + (zext_32(byte) << 2), by add32 (R103). -/
def tableAddress (sb offset : Word) (index : Byte) : Word :=
  add32 (add32 sb offset) (index.zeroExtend 32 <<< 2)

/-- The address of tA = S_A[b0] (R103). -/
def addressA (sb w : Word) : Word := tableAddress sb offsetSA (byte0 w)

/-- The address of tB = S_B[b1] (R103). -/
def addressB (sb w : Word) : Word := tableAddress sb offsetSB (byte1 w)

/-- The address of tC = S_C[b2] (R103). -/
def addressC (sb w : Word) : Word := tableAddress sb offsetSC (byte2 w)

/-- The address of tD = S_D[b3] (R103). -/
def addressD (sb w : Word) : Word := tableAddress sb offsetSD (byte3 w)

/-- The grouping of the round function: tA + (tB XOR (tD + tC)), the sum first, then the XOR, then the outer sum
(R105, R108, C1). -/
def roundMix (tA tB tC tD : Word) : Word := add32 tA (xor32 tB (add32 tD tC))

/-! ## The checks on address operands -/

/-- Bits 1:0 of an address operand are not 00 (R55, R203). -/
def isMisaligned (a : Word) : Bool := a.extractLsb' 0 2 != 0#2

/-- A range of `bytes` bytes from `base` ends above 2^32, the end taken as an unbounded integer (R56, R204). -/
def rangeWraps (base : Word) (bytes : Nat) : Bool := 2 ^ 32 < base.toNat + bytes

/-- Two ranges of bytes overlap (R130, R160). -/
def rangesOverlap (a : Word) (aBytes : Nat) (b : Word) (bBytes : Nat) : Bool :=
  a.toNat < b.toNat + bBytes && b.toNat < a.toNat + aBytes

/-- SLEN: the source range's length in bytes (R160). -/
def sourceBytes (mode : MoveMode) (count : Nat) : Nat :=
  match mode with
  | .copy => 4 * count
  | .fill => 4

/-- The address MOVE reads for word k: SRC + (k << 2) in copy mode (R165), SRC itself in fill mode (R166). -/
def sourceAddress (mode : MoveMode) (src : Word) (k : Nat) : Word :=
  match mode with
  | .copy => wordAddress src k
  | .fill => src

end Sys2Proof.Machine
end

