-- ==== Sys2Proof/Machine/Ops.lean ====
section
/-! DEFINITION. The shared operations: registers with their validity flag, memory, the platform, the word accesses of an
operation, the ends of an operation, taking a block fault (60_exceptions.md R210) and what a model fault leaves
(10_state.md R37). The block has no return from a fault (R212); reset is the only way on (70_reset_and_hazards.md R230). -/

namespace Sys2Proof.Machine

/-! ## Registers with a validity flag -/

/-- The value of a register while it is valid (R22, R24, R25). -/
def Reg.get? (r : Reg) : Option Word := if r.valid then some r.value else none

/-- A register just written: the value, valid (R23, R107). -/
def Reg.written (v : Word) : Reg := ⟨v, true⟩

/-- A register made invalid (R36). The block writes no value there. -/
def Reg.invalidated (r : Reg) : Reg := ⟨r.value, false⟩

/-! ## UNDEF -/

/-- UNDEF with a reason recorded (R207). -/
def UndefSet.insert (u : UndefSet) (r : Reason) : UndefSet :=
  match r with
  | .undefinedOperand => { u with undefinedOperand := true }
  | .precondition => { u with precondition := true }
  | .hostUndefinedRead => { u with hostUndefinedRead := true }
  | .hostUndefinedWrite => { u with hostUndefinedWrite := true }

/-- UNDEF holds a reason. -/
def UndefSet.has (u : UndefSet) (r : Reason) : Bool :=
  match r with
  | .undefinedOperand => u.undefinedOperand
  | .precondition => u.precondition
  | .hostUndefinedRead => u.hostUndefinedRead
  | .hostUndefinedWrite => u.hostUndefinedWrite

/-- UNDEF is empty (R220). -/
def UndefSet.isEmpty (u : UndefSet) : Bool :=
  !(u.undefinedOperand || u.precondition || u.hostUndefinedRead || u.hostUndefinedWrite)

/-! ## Memory -/

/-- What a byte that memory does not list reads as: the one definition of it (U14). -/
def Background.read (r : Background) (a : Nat) : Byte :=
  match r with
  | .fixed b => b
  | .drawn d => Config.freeByte d a

/-- The byte listed at an address. -/
def lookupCell : List Host.Cell → Nat → Option Byte
  | [], _ => none
  | c :: cs, a => if c.1 = a then some c.2 else lookupCell cs a

/-- The list with a byte put at an address, in place of the one listed there. -/
def insertCell : List Host.Cell → Nat → Byte → List Host.Cell
  | [], a, b => [(a, b)]
  | c :: cs, a, b =>
    if a < c.1 then (a, b) :: c :: cs
    else if c.1 = a then (a, b) :: cs
    else c :: insertCell cs a b

/-- The list with nothing listed at an address. -/
def eraseCell (cs : List Host.Cell) (a : Nat) : List Host.Cell := cs.filter (fun c => c.1 != a)

/-- The canonical form: addresses strictly rise and lie below 2^32, and no listed byte is what an unlisted byte reads
as. -/
abbrev Memory.wf (m : Memory) : Prop :=
  m.cells.Pairwise (fun c d => c.1 < d.1) ∧ ∀ c ∈ m.cells, c.1 < 2 ^ 32 ∧ m.rest ≠ .fixed c.2

/-- The byte at an address (R50). -/
def Memory.read (m : Memory) (a : Word) : Byte :=
  (lookupCell m.cells a.toNat).getD (m.rest.read a.toNat)

/-- A byte written at an address: memory keeps the last value written (R51). -/
def Memory.write (m : Memory) (a : Word) (b : Byte) : Memory :=
  if m.rest = .fixed b then { m with cells := eraseCell m.cells a.toNat }
  else { m with cells := insertCell m.cells a.toNat b }

/-- The four byte addresses of the word at `a` (R53). -/
def wordBytes (a : Word) : List Word := [a, a + 1#32, a + 2#32, a + 3#32]

/-- The word at an address, little-endian: byte[a+3], byte[a+2], byte[a+1], byte[a] (R53). -/
def Memory.readWord (m : Memory) (a : Word) : Word :=
  m.read (a + 3#32) ++ m.read (a + 2#32) ++ m.read (a + 1#32) ++ m.read a

/-- A word written at an address, little-endian (R53). -/
def Memory.writeWord (m : Memory) (a : Word) (v : Word) : Memory :=
  (((m.write a (byte0 v)).write (a + 1#32) (byte1 v)).write (a + 2#32) (byte2 v)).write (a + 3#32) (byte3 v)

/-- The word at an address takes the free value of a draw (U9). -/
def Memory.drawWord (m : Memory) (draw : Nat) (a : Word) : Memory :=
  (((m.write a (Config.freeByte draw a.toNat)).write (a + 1#32) (Config.freeByte draw (a + 1#32).toNat)).write (a + 2#32)
    (Config.freeByte draw (a + 2#32).toNat)).write (a + 3#32) (Config.freeByte draw (a + 3#32).toNat)

/-! ## The platform -/

/-- The address of the aligned word that holds a byte address. -/
def wordBase (a : Word) : Nat := a.toNat / 4 * 4

/-- A region backs the aligned word of an address. -/
def Region.covers (r : Region) (a : Word) : Bool :=
  r.base ≤ wordBase a && wordBase a + 4 ≤ r.base + r.size

/-- The aligned word of an address lies in the register window at CORE_BASE (R58). -/
def Platform.inWindow (p : Platform) (a : Word) : Bool :=
  match p.coreBase with
  | none => false
  | some base => base.toNat < wordBase a + 4 && wordBase a < base.toNat + 0x20

/-- `Mapped`: the aligned word at an address is ordinary memory (R51), which no word of the window is (R58). -/
def Platform.mapped (p : Platform) (a : Word) : Bool :=
  p.regions.any (fun r => r.covers a) && !p.inWindow a

/-! ## The word accesses of an operation -/

/-- How a part of an operation ends: with a value, or at the first access whose word is not Mapped (R205). The state is
the one at that point. -/
inductive Ran (α : Type) where
  | done (v : α) (s : State)
  | bus (address : Word) (s : State)

/-- One part of an operation after another: no further access is made after a failing one (R205). -/
def Ran.bind {α β : Type} (x : Ran α) (f : α → State → Ran β) : Ran β :=
  match x with
  | .done v s => f v s
  | .bus a s => .bus a s

/-- The address of an access. -/
def Access.address : Access → Word
  | .read a => a
  | .write a => a

/-- An access made is an entry of the trace (R8, R64). -/
def State.record (s : State) (x : Access) : State := { s with trace := s.trace ++ [x] }

/-- A list of accesses made, in order (R64). -/
def State.recordAll (s : State) (xs : List Access) : State := { s with trace := s.trace ++ xs }

/-- Memory as it is after a step of an operation. -/
def State.withMem (s : State) (m : Memory) : State := { s with mem := m }

/-- MemRead(a, 4) (R8, R52). -/
def memRead (a : Word) (s : State) : Ran Word :=
  if s.platform.mapped a then .done (s.mem.readWord a) (s.record (.read a)) else .bus a s

/-- MemWrite(a, 4, v) (R8, R52). -/
def memWrite (a v : Word) (s : State) : Ran Unit :=
  if s.platform.mapped a then .done () ((s.withMem (s.mem.writeWord a v)).record (.write a)) else .bus a s

/-! ## The ends of an operation -/

/-- The three argument registers invalid (R36). -/
def State.invalidateArgs (s : State) : State :=
  { s with arg0 := s.arg0.invalidated, arg1 := s.arg1.invalidated, arg2 := s.arg2.invalidated }

/-- DEC64 or MOVE completes: RESULT and the argument registers invalid (R25, R36). -/
def State.complete (s : State) : State :=
  { s.invalidateArgs with result := s.result.invalidated }

/-- ROUND completes: RESULT takes its value and becomes valid, the argument registers invalid (R25, R36, R107). -/
def State.completeWith (s : State) (v : Word) : State :=
  { s.invalidateArgs with result := Reg.written v }

/-- Taking a block fault: raise Cause(info) (R210). Nothing else is saved and control goes nowhere. -/
def State.raise (s : State) (c : Cause) (info : Word) : State :=
  { s.complete with status := statusOf c, faddr := info, faultLog := s.faultLog ++ [(c, info)] }

/-- `count` words from `base` on take free values of one draw, those that are memory at all (R69, U9). -/
def drawWords (p : Platform) (draw : Nat) (base : Word) : Nat → Memory → Memory
  | 0, m => m
  | count + 1, m =>
    let rest := drawWords p draw base count m
    if p.mapped (wordAddress base count) then rest.drawWord draw (wordAddress base count) else rest

/-- BUS_ERROR leaves the destination words, `count` from `base` on, unspecified (R69). -/
def State.unspecify (s : State) (base : Word) (count : Nat) : State :=
  { s with mem := drawWords s.platform s.draws base count s.mem, draws := s.draws + 1 }

/-- A model fault that the host's own access makes: UNDEF records the reason, the block's state stays (R207, R208). -/
def State.note (s : State) (r : Reason) : State := { s with undef := s.undef.insert r }

/-- A model fault that ends an operation: UNDEF records the reason, and every register and all memory are undefined
(R37, R207, U13): free values of one draw, STATUS among its legal values (R27). No access is made (R206). -/
def State.undefine (s : State) (r : Reason) : State :=
  { s with
    arg0 := ⟨Config.freeWord s.draws 0, Config.freeFlag s.draws 0⟩
    arg1 := ⟨Config.freeWord s.draws 1, Config.freeFlag s.draws 1⟩
    arg2 := ⟨Config.freeWord s.draws 2, Config.freeFlag s.draws 2⟩
    result := ⟨Config.freeWord s.draws 3, Config.freeFlag s.draws 3⟩
    status := statusOfDraw (Config.freeWord s.draws 4)
    faddr := Config.freeWord s.draws 5
    mem := ⟨[], .drawn s.draws⟩
    undef := s.undef.insert r
    draws := s.draws + 1 }

/-- The reset input: the registers as after reset; memory, UNDEF and FAULTLOG stay (R230, R38). -/
def State.resetInput (s : State) : State :=
  { s.complete with status := 0#32, faddr := 0#32 }

end Sys2Proof.Machine
end

