-- ==== Sys2Proof/Machine/Round.lean ====
section
/-! DEFINITION. The round function F and the operation ROUND (40_feistel_round.md R105-R109). -/

namespace Sys2Proof.Machine

/-- F(SB, w): the four table reads in the order tA, tB, tC, tD (R106), then their mix (R105). -/
def feistel (sb w : Word) (s : State) : Ran Word :=
  (memRead (addressA sb w) s).bind fun tA s =>
  (memRead (addressB sb w) s).bind fun tB s =>
  (memRead (addressC sb w) s).bind fun tC s =>
  (memRead (addressD sb w) s).bind fun tD s =>
  .done (roundMix tA tB tC tD) s

/-- ROUND on valid operands (R107). A bus error changes no memory (R69). -/
def roundOn (sb w : Word) (s : State) : State :=
  if isMisaligned sb then s.raise .misaligned sb
  else if rangeWraps sb scheduleBytes then s.raise .addressWrap sb
  else
    match feistel sb w s with
    | .done v t => t.completeWith v
    | .bus a t => t.raise .busError a

/-- ROUND (R107): SB = ARG0, W = ARG1 (R84). -/
def execRound (s : State) : Host.Outcome State Fault Refusal :=
  match s.arg0.get?, s.arg1.get? with
  | some sb, some w => .next (roundOn sb w s)
  | _, _ => .next (s.undefine .undefinedOperand)

end Sys2Proof.Machine
end

