-- ==== Sys2Proof/Machine/Dec64.lean ====
section
/-! DEFINITION. The 64-bit block decryption DEC64 (41_block_decrypt.md R130-R136). -/

namespace Sys2Proof.Machine

/-- The words a DEC64 holds while it runs: the halves L and R, and the word in flight `temp` (R33, R131). -/
structure Flight where
  left : Word
  right : Word
  temp : Word
  deriving DecidableEq, Repr

/-- One pass of the round loop at index i: temp = K[i] XOR L, L = F(temp) XOR R, R = temp (R131). -/
def decryptRound (sb : Word) (i : Nat) (left right : Word) (s : State) : Ran Flight :=
  (memRead (wordAddress sb i) s).bind fun k s =>
  (feistel sb (xor32 k left) s).bind fun f s =>
  .done ⟨xor32 f right, xor32 k left, xor32 k left⟩ s

/-- The do-while loop (R131) from index `n + 2` down to 2: the body, then the test and the decrement. -/
def decryptRounds (sb : Word) : Nat → Word → Word → State → Ran Flight
  | 0, left, right, s => decryptRound sb 2 left right s
  | n + 1, left, right, s =>
    (decryptRound sb (n + 3) left right s).bind fun flight s =>
    decryptRounds sb n flight.left flight.right s

/-- The accesses of DEC64 in their order (R133): the block, the sixteen rounds, K[1] and K[0], and the two writes. -/
def decryptBlock (sb ba : Word) (s : State) : Ran Unit :=
  (memRead ba s).bind fun left s =>
  (memRead (add32 ba 4#32) s).bind fun right s =>
  (decryptRounds sb 15 left right s).bind fun flight s =>
  (memRead (wordAddress sb 1) s).bind fun k1 s =>
  (memRead (wordAddress sb 0) s).bind fun k0 s =>
  (memWrite ba (xor32 k0 flight.temp) s).bind fun _ s =>
  memWrite (add32 ba 4#32) (xor32 k1 flight.left) s

/-- DEC64 on valid operands (R130). -/
def dec64On (sb ba : Word) (s : State) : State :=
  if isMisaligned sb then s.raise .misaligned sb
  else if isMisaligned ba then s.raise .misaligned ba
  else if rangeWraps sb scheduleBytes then s.raise .addressWrap sb
  else if rangeWraps ba blockBytes then s.raise .addressWrap ba
  else if rangesOverlap ba blockBytes sb scheduleBytes then s.undefine .precondition
  else
    match decryptBlock sb ba s with
    | .done _ t => t.complete
    | .bus a t => (t.unspecify ba 2).raise .busError a

/-- DEC64 (R130): SB = ARG0, BA = ARG1 (R84). -/
def execDec64 (s : State) : Host.Outcome State Fault Refusal :=
  match s.arg0.get?, s.arg1.get? with
  | some sb, some ba => .next (dec64On sb ba s)
  | _, _ => .next (s.undefine .undefinedOperand)

end Sys2Proof.Machine
end

