-- ==== Sys2Proof/Machine/Move.lean ====
section
/-! DEFINITION. The bulk copy/fill engine MOVE and its two modes (42_bulk_mover.md R160-R168). -/

namespace Sys2Proof.Machine

/-- The body of both modes (R161, R162): `n` more words, ascending from word k, each read and then written before the
next one (R165, R166). -/
def moveWords (mode : MoveMode) (src dst : Word) : Nat → Nat → State → Ran Unit
  | 0, _, s => .done () s
  | n + 1, k, s =>
    (memRead (sourceAddress mode src k) s).bind fun v s =>
    (memWrite (wordAddress dst k) v s).bind fun _ s =>
    moveWords mode src dst n (k + 1) s

/-- MOVE on valid operands, its mode selected and its COUNT taken (R160). With COUNT = 0 only the alignment checks are
made (R163). -/
def moveOn (mode : MoveMode) (src dst : Word) (count : Nat) (s : State) : State :=
  if isMisaligned src then s.raise .misaligned src
  else if isMisaligned dst then s.raise .misaligned dst
  else if count = 0 then s.complete
  else if rangeWraps src (sourceBytes mode count) then s.raise .addressWrap src
  else if rangeWraps dst (4 * count) then s.raise .addressWrap dst
  else if rangesOverlap src (sourceBytes mode count) dst (4 * count) then s.undefine .precondition
  else
    match moveWords mode src dst count 0 s with
    | .done _ t => t.complete
    | .bus a t => (t.unspecify dst count).raise .busError a

/-- MOVE.COPY (R160, R161): SRC = ARG0, DST = ARG1 (R84), COUNT from the control word. -/
def execMoveCopy (count : Word) (s : State) : Host.Outcome State Fault Refusal :=
  match s.arg0.get?, s.arg1.get? with
  | some src, some dst => .next (moveOn .copy src dst count.toNat s)
  | _, _ => .next (s.undefine .undefinedOperand)

/-- MOVE.FILL (R160, R162): SRC = ARG0, DST = ARG1 (R84), COUNT from the control word. -/
def execMoveFill (count : Word) (s : State) : Host.Outcome State Fault Refusal :=
  match s.arg0.get?, s.arg1.get? with
  | some src, some dst => .next (moveOn .fill src dst count.toNat s)
  | _, _ => .next (s.undefine .undefinedOperand)

/-- MOVE (R160): CTRL = ARG2 selects the mode and gives COUNT (R82); an invalid ARG2 is an invalid operand (R206). -/
def execMove (s : State) : Host.Outcome State Fault Refusal :=
  match s.arg2.get? with
  | some ctrl =>
    if controlFill ctrl then execMoveFill (controlCount ctrl) s else execMoveCopy (controlCount ctrl) s
  | none => .next (s.undefine .undefinedOperand)

end Sys2Proof.Machine
end

