-- ==== Sys2Proof/Machine/Dispatch.lean ====
section
/-! DEFINITION. One arm per command of the block, each a direct call of its meaning. -/

namespace Sys2Proof.Machine

def exec (i : Instr) (s : State) : Host.Outcome State Fault Refusal :=
  match i with
  | .round => Sys2Proof.Machine.execRound s
  | .dec64 => Sys2Proof.Machine.execDec64 s
  | .move => Sys2Proof.Machine.execMove s
  | .moveCopy count => Sys2Proof.Machine.execMoveCopy count s
  | .moveFill count => Sys2Proof.Machine.execMoveFill count s

end Sys2Proof.Machine
end

