-- ==== Sys2Proof/Machine/Window.lean ====
section
/-! DEFINITION. The register window as the host reaches it (10_state.md R21-R30): reads, writes, and the write to CMD that
runs a command (R26). -/

namespace Sys2Proof.Machine

/-- The seven registers of the window (R21). -/
inductive WindowReg where
  | cmd
  | arg0
  | arg1
  | arg2
  | result
  | status
  | faddr
  deriving DecidableEq, Repr

/-- The byte offset of a register from the window's start (R21). -/
def WindowReg.offset : WindowReg → Word
  | .cmd => 0x00#32
  | .arg0 => 0x04#32
  | .arg1 => 0x08#32
  | .arg2 => 0x0C#32
  | .result => 0x10#32
  | .status => 0x14#32
  | .faddr => 0x18#32

/-- The register at an offset: none for the reserved slot 0x1C, for an offset that is no multiple of 4 and for one not
below 0x20 (R21, R29). -/
def windowRegister (offset : Word) : Option WindowReg :=
  if offset = 0x00#32 then some .cmd
  else if offset = 0x04#32 then some .arg0
  else if offset = 0x08#32 then some .arg1
  else if offset = 0x0C#32 then some .arg2
  else if offset = 0x10#32 then some .result
  else if offset = 0x14#32 then some .status
  else if offset = 0x18#32 then some .faddr
  else none

/-- A host read returns a value, or none (R208). -/
def State.reply (s : State) (v : Option Word) : State := { s with replies := s.replies ++ [v] }

/-- A host read that has no meaning: HOST_UNDEFINED_READ, and no value (R29, R30, R208). -/
def refuseRead (s : State) : State := (s.note .hostUndefinedRead).reply none

/-- A host write that has no meaning: HOST_UNDEFINED_WRITE (R29, R30, R208). -/
def refuseWrite (s : State) : State := s.note .hostUndefinedWrite

/-- A host read of a register with a validity flag: its value while it is valid (R24, R25). -/
def readValid (r : Reg) (s : State) : State :=
  match r.get? with
  | some v => s.reply (some v)
  | none => refuseRead s

/-- `RD`: a host read of a register (R24-R28). CMD reads as zero (R26). -/
def readRegister (r : WindowReg) (s : State) : State :=
  match r with
  | .cmd => s.reply (some 0#32)
  | .arg0 => readValid s.arg0 s
  | .arg1 => readValid s.arg1 s
  | .arg2 => readValid s.arg2 s
  | .result => readValid s.result s
  | .status => s.reply (some s.status)
  | .faddr => s.reply (some s.faddr)

/-- `WR CMD, c` (R26): ignored while STATUS.FAULT = 1 (R212); otherwise the command runs, or the word is illegal
(R202). -/
def writeCommand (c : Word) (s : State) : Host.Outcome State Fault Refusal :=
  if statusFault s.status then .next s
  else
    match decodeCommand c with
    | .command i => exec i s
    | .illegalCommand => .next (s.raise .illegalCommand c)

/-- `WR`: a host write of a register (R23, R25-R28). RESULT, STATUS and FADDR ignore it. -/
def writeRegister (r : WindowReg) (v : Word) (s : State) : Host.Outcome State Fault Refusal :=
  match r with
  | .cmd => writeCommand v s
  | .arg0 => .next { s with arg0 := Reg.written v }
  | .arg1 => .next { s with arg1 := Reg.written v }
  | .arg2 => .next { s with arg2 := Reg.written v }
  | .result => .next s
  | .status => .next s
  | .faddr => .next s

/-- A host read of the window at an offset and a width (R29, R30). -/
def readWindow (width : Nat) (offset : Word) (s : State) : State :=
  if width = 32 then
    match windowRegister offset with
    | some r => readRegister r s
    | none => refuseRead s
  else refuseRead s

/-- A host write of the window at an offset and a width (R29, R30). -/
def writeWindow (width : Nat) (offset v : Word) (s : State) : Host.Outcome State Fault Refusal :=
  if width = 32 then
    match windowRegister offset with
    | some r => writeRegister r v s
    | none => .next (refuseWrite s)
  else .next (refuseWrite s)

end Sys2Proof.Machine
end

