-- ==== Sys2Proof/Machine/HostAccess.lean ====
section
/-! DEFINITION. The host's statements (30_encoding.md R87): window accesses, memory accesses outside any operation, and
the reset input. One statement is one step, in the order the host issues them (20_memory.md R63). -/

namespace Sys2Proof.Machine

/-- The window offset of a memory address, where the platform maps the window into memory (R21, R58). A host access
there is an access to the window: DEDUCED (notes/assumptions/11.md). -/
def Platform.windowOffset (p : Platform) (a : Word) : Option Word :=
  match p.coreBase with
  | none => none
  | some base =>
    if base.toNat ≤ a.toNat && a.toNat < base.toNat + 0x20 then some (a - base) else none

/-- The four bytes of a host word access are memory, none of them past 2^32 (R50, R51). The spec asks alignment of the
block's accesses only (R52): DESIGN CHOICE (notes/assumptions/10.md). -/
def Platform.hostWordMapped (p : Platform) (a : Word) : Bool :=
  a.toNat + 4 ≤ 2 ^ 32 && p.mapped a && p.mapped (a + 3#32)

/-- `LDW a` (R87). -/
def loadWord (a : Word) (s : State) : Host.Outcome State Fault Refusal :=
  match s.platform.windowOffset a with
  | some offset => .next (readWindow 32 offset s)
  | none =>
    if s.platform.hostWordMapped a then .next (s.reply (some (s.mem.readWord a)))
    else .fault (.hostReadUnmapped a)

/-- `STW a, v` (R87). -/
def storeWord (a v : Word) (s : State) : Host.Outcome State Fault Refusal :=
  match s.platform.windowOffset a with
  | some offset => writeWindow 32 offset v s
  | none =>
    if s.platform.hostWordMapped a then .next (s.withMem (s.mem.writeWord a v))
    else .fault (.hostWriteUnmapped a)

/-- A host read of one byte of memory (R53); in a mapped window it is a read of another width (R30). -/
def loadByte (a : Word) (s : State) : Host.Outcome State Fault Refusal :=
  match s.platform.windowOffset a with
  | some offset => .next (readWindow 8 offset s)
  | none =>
    if s.platform.mapped a then .next (s.reply (some ((s.mem.read a).zeroExtend 32)))
    else .fault (.hostReadUnmapped a)

/-- A host write of one byte of memory (R53); in a mapped window it is a write of another width (R30). -/
def storeByte (a : Word) (b : Byte) (s : State) : Host.Outcome State Fault Refusal :=
  match s.platform.windowOffset a with
  | some offset => writeWindow 8 offset (b.zeroExtend 32) s
  | none =>
    if s.platform.mapped a then .next (s.withMem (s.mem.write a b))
    else .fault (.hostWriteUnmapped a)

/-- One host statement (R87). -/
def runStatement (st : HostStmt) (s : State) : Host.Outcome State Fault Refusal :=
  match st with
  | .windowWrite width offset v => writeWindow width offset v s
  | .windowRead width offset => .next (readWindow width offset s)
  | .stw a v => storeWord a v s
  | .ldw a => loadWord a s
  | .stb a b => storeByte a b s
  | .ldb a => loadByte a s
  | .reset => .next s.resetInput

/-- The next pending statement runs (R63); with none pending the block is idle and nothing changes (R219). -/
def runPending (s : State) : Host.Outcome State Fault Refusal :=
  match s.pending with
  | [] => .next s
  | st :: rest => runStatement st { s with pending := rest }

/-- Put a command as issued where the next step runs it: its control word, where it has one, in ARG2, and the write of
its command word to CMD as the host's next statement (R84, R88). -/
def State.issueNext (s : State) (e : Issue) : State :=
  let s := match e.control with
    | some ctrl => { s with arg2 := Reg.written ctrl }
    | none => s
  { s with pending := .windowWrite 32 WindowReg.cmd.offset e.command :: s.pending }

end Sys2Proof.Machine
end

