-- ==== Sys2Proof/Machine/Step.lean ====
section
/-! DEFINITION. One step of the machine: the host's next statement (20_memory.md R63), a write to CMD being the one that
runs a command (10_state.md R26, R31). -/

namespace Sys2Proof.Machine

/-- One step: the host's next statement, an operation being one atomic step (R63). -/
def step (s : State) : Host.Outcome State Fault Refusal := runPending s

/-- The state with a row's word of spec/opcode_table.json issued next. The block fetches nothing (R31): a command word
comes as a write to CMD, and a control word stands in ARG2 beside the command word of MOVE (notes/assumptions/2.md). -/
def State.withFetchWord (s : State) (nbits w : Nat) : State := s.issueNext (tableIssue nbits w)

end Sys2Proof.Machine
end

