-- ==== Sys2Proof/Machine/Assembler.lean ====
section
/-! DEFINITION. The assembly statements as the host statements they expand to (30_encoding.md R87-R89). STW, LDW and
RESET are host statements as they stand. -/

namespace Sys2Proof.Machine

/-- `WR reg, v` (R87). -/
def asmWr (r : WindowReg) (v : Word) : HostStmt := .windowWrite 32 r.offset v

/-- `RD reg` (R87). -/
def asmRd (r : WindowReg) : HostStmt := .windowRead 32 r.offset

/-- `ROUND sb, w` (R88). -/
def asmRound (sb w : Word) : List HostStmt :=
  [asmWr .arg0 sb, asmWr .arg1 w, asmWr .cmd (encode .round).command]

/-- `DEC64 sb, ba` (R88). -/
def asmDec64 (sb ba : Word) : List HostStmt :=
  [asmWr .arg0 sb, asmWr .arg1 ba, asmWr .cmd (encode .dec64).command]

/-- `MOVE src, dst, ctrl` (R88). -/
def asmMove (src dst ctrl : Word) : List HostStmt :=
  [asmWr .arg0 src, asmWr .arg1 dst, asmWr .arg2 ctrl, asmWr .cmd (encode .move).command]

/-- `COPY src, dst, n`: refused where n has bit 24 set (R89). -/
def asmCopy (src dst n : Word) : Option (List HostStmt) :=
  if countFits n then some (asmMove src dst n) else none

/-- `FILL src, dst, n`: refused where n has bit 24 set (R89). -/
def asmFill (src dst n : Word) : Option (List HostStmt) :=
  if countFits n then some (asmMove src dst (n ||| 0x01000000#32)) else none

end Sys2Proof.Machine
end

