-- ==== Sys2Proof/Safety.lean ====
section
/-! DEFINITION. What counts as a clean run, and the invariants claims use (60_exceptions.md R220, 10_state.md R27, R28). -/

namespace Sys2Proof.Machine

/-- Clean: FAULTLOG and UNDEF are both empty (R220). -/
abbrev State.Clean (s : State) : Prop := s.faultLog = [] ∧ s.undef.isEmpty = true

/-- A model fault ends the command: the state that follows is undefined (R37). -/
def EndsUndefined (s t : State) : Prop :=
  t = s.undefine .undefinedOperand ∨ t = s.undefine .precondition

/-- No model fault has ended an operation, so the registers are defined (R37). -/
abbrev State.Defined (s : State) : Prop := s.undef.undefinedOperand = false ∧ s.undef.precondition = false

/-- STATUS and FADDR agree with FAULTLOG: both are zero, or they record its last entry (R27, R28, R210). -/
def State.FaultRecorded (s : State) : Prop :=
  (s.status = 0#32 ∧ s.faddr = 0#32) ∨
    ∃ c info, s.faultLog.getLast? = some (c, info) ∧ s.status = statusOf c ∧ s.faddr = info

/-- The state a run starts from: the first reset (R220), over a platform and its memory, with the host's statements to
come (R231, R233). -/
def State.startRun (p : Platform) (m : Memory) (program : List HostStmt) : State :=
  { State.reset with platform := p, mem := m, pending := program }

end Sys2Proof.Machine
end

