-- ==== Sys2Proof/Certificates/Slice0/Obligations.lean ====
section
/-! DEFINITION. The statements about the ndsbios CORE, and the plain functions they are stated with: the round function
and the block cipher over a schedule given by its words K[i] (00_scope.md R10), and the access lists of the operations. -/

namespace Sys2Proof.Spec

open Sys2Proof.Machine

/-! ## The cipher over a schedule K (R10, R105, R131, R132) -/

/-- The byte address of word i from a base: base + 4*i. -/
def at4 (base : Word) (i : Nat) : Word := base + BitVec.ofNat 32 (4 * i)

/-- K[i] = MemRead(SB + 4*i, 4), over the memory of a state (R10). -/
def schedule (s : State) (sb : Word) (i : Nat) : Word := s.mem.readWord (at4 sb i)

/-- Byte j of a word, b0 the least significant one (R102). -/
def octet (w : Word) (j : Nat) : Nat := w.toNat / 256 ^ j % 256

/-- The K indices of tA, tB, tC and tD (R103). -/
def boxIndices (w : Word) : List Nat := [786 + octet w 0, 530 + octet w 1, 274 + octet w 2, 18 + octet w 3]

/-- F: tA + (tB XOR (tD + tC)) (R105). -/
def roundF (K : Nat → Word) (w : Word) : Word :=
  K (786 + octet w 0) + (K (530 + octet w 1) ^^^ (K (18 + octet w 3) + K (274 + octet w 2)))

/-- One round of the loop at index i, on (L, R): temp = K[i] XOR L, L = F(temp) XOR R, R = temp (R131). -/
def feistelRound (K : Nat → Word) (b : Word × Word) (i : Nat) : Word × Word :=
  (roundF K (K i ^^^ b.1) ^^^ b.2, K i ^^^ b.1)

/-- The round indices of DEC64, 17 down to 2 (R131). -/
def roundIndices : List Nat := [17, 16, 15, 14, 13, 12, 11, 10, 9, 8, 7, 6, 5, 4, 3, 2]

/-- L and R after the sixteen rounds (R131). -/
def afterRounds (K : Nat → Word) (b : Word × Word) : Word × Word := roundIndices.foldl (feistelRound K) b

/-- The block DEC64 leaves: L_final = K[0] XOR temp, R_final = K[1] XOR L, temp being R after the loop (R132, R136). -/
def decryptF (K : Nat → Word) (b : Word × Word) : Word × Word :=
  (K 0 ^^^ (afterRounds K b).2, K 1 ^^^ (afterRounds K b).1)

/-- The reference encryption of 95_test_vectors.md section 2.2, no part of the block: rounds at indices 0 up to 15, then
(K[17] XOR temp, K[16] XOR L). -/
def encryptF (K : Nat → Word) (b : Word × Word) : Word × Word :=
  (K 17 ^^^ ((List.range 16).foldl (feistelRound K) b).2, K 16 ^^^ ((List.range 16).foldl (feistelRound K) b).1)

/-- Each round's index and its temp = K[i] XOR L, from a block on. -/
def roundTemps (K : Nat → Word) : List Nat → Word × Word → List (Nat × Word)
  | [], _ => []
  | i :: is, b => (i, K i ^^^ b.1) :: roundTemps K is (feistelRound K b i)

/-! ## Access lists (R106, R133, R165, R166) -/

/-- The four reads of F (R106). -/
def roundReads (sb w : Word) : List Access := (boxIndices w).map fun i => .read (at4 sb i)

/-- The 86 accesses of DEC64 (R133). -/
def decryptAccesses (s : State) (sb ba : Word) : List Access :=
  [.read ba, .read (ba + 4#32)] ++
  (roundTemps (schedule s sb) roundIndices (s.mem.readWord ba, s.mem.readWord (ba + 4#32))).flatMap
    (fun r => .read (at4 sb r.1) :: roundReads sb r.2) ++
  [.read (at4 sb 1), .read (at4 sb 0), .write ba, .write (ba + 4#32)]

/-- The address MOVE reads for word k (R165, R166). -/
def sourceWord (mode : MoveMode) (src : Word) (k : Nat) : Word :=
  match mode with
  | .copy => at4 src k
  | .fill => src

/-- The 2*COUNT accesses of MOVE (R165, R166). -/
def moveAccesses (mode : MoveMode) (src dst : Word) (count : Nat) : List Access :=
  (List.range count).flatMap fun k => [.read (sourceWord mode src k), .write (at4 dst k)]

/-! ## Operands and ranges (R84, R56) -/

/-- The mode and COUNT a control word gives (R82). -/
def controlForm (ctrl : Word) : MoveMode × Nat :=
  (if ctrl.getLsbD 24 then .fill else .copy, (ctrl &&& 0xFEFFFFFF#32).toNat)

/-- The mode and COUNT of a MOVE, from its control word in ARG2 or from the mode's own form (R82, R160). -/
def moveForm (i : Instr) (s : State) : Option (MoveMode × Nat) :=
  match i with
  | .round => none
  | .dec64 => none
  | .move => s.arg2.get?.map controlForm
  | .moveCopy count => some (.copy, count.toNat)
  | .moveFill count => some (.fill, count.toNat)

/-- The values of ARG0 and ARG1, where every argument register the command reads is valid: these two, and for MOVE ARG2
as well (R84, R206). -/
def operandPair (i : Instr) (s : State) : Option (Word × Word) :=
  match s.arg0.get?, s.arg1.get? with
  | some x, some y => if i = .move ∧ s.arg2.get? = none then none else some (x, y)
  | _, _ => none

/-- The address operands of a command in their order, where every register it reads is valid (R84, R203). -/
def addressOperands (i : Instr) (s : State) : Option (List Word) :=
  (operandPair i s).map fun o => if i = .round then [o.1] else [o.1, o.2]

/-- The ranges of a MOVE of `count` words, as base and length in bytes: none with COUNT = 0 (R160, R163). -/
def moveRanges (src dst : Word) (mode : MoveMode) (count : Nat) : List (Word × Nat) :=
  if count = 0 then [] else [(src, if mode = .fill then 4 else 4 * count), (dst, 4 * count)]

/-- The ranges of a command in the order they are checked (R56, R204). -/
def ranges (i : Instr) (s : State) : List (Word × Nat) :=
  match operandPair i s with
  | none => []
  | some (x, y) =>
    match i with
    | .round => [(x, 4168)]
    | .dec64 => [(x, 4168), (y, 8)]
    | .move => (moveForm .move s).elim [] fun f => moveRanges x y f.1 f.2
    | .moveCopy count => moveRanges x y .copy count.toNat
    | .moveFill count => moveRanges x y .fill count.toNat

/-- Every address operand is a multiple of 4 (R55). -/
abbrev Aligned (i : Instr) (s : State) : Prop :=
  ∃ ops, addressOperands i s = some ops ∧ ∀ a ∈ ops, a.toNat % 4 = 0

/-- No range ends above 2^32 (R56). -/
abbrev InRange (i : Instr) (s : State) : Prop := ∀ r ∈ ranges i s, r.1.toNat + r.2 ≤ 2 ^ 32

/-- Two ranges overlap, the one precondition of a command with two ranges (R135, R164). -/
def Overlap (i : Instr) (s : State) : Prop :=
  match ranges i s with
  | [a, b] => a.1.toNat < b.1.toNat + b.2 ∧ b.1.toNat < a.1.toNat + a.2
  | _ => False

/-- Every check before the first access passes (R209). -/
def Checked (i : Instr) (s : State) : Prop := Aligned i s ∧ InRange i s ∧ ¬Overlap i s

/-- The accesses a command makes that meets no bus error (R64). -/
def accesses (i : Instr) (s : State) : List Access :=
  match operandPair i s with
  | none => []
  | some (x, y) =>
    match i with
    | .round => roundReads x y
    | .dec64 => decryptAccesses s x y
    | .move => (moveForm .move s).elim [] fun f => moveAccesses f.1 x y f.2
    | .moveCopy count => moveAccesses .copy x y count.toNat
    | .moveFill count => moveAccesses .fill x y count.toNat

/-- Every word a command accesses is Mapped (R51). -/
def AllMapped (i : Instr) (s : State) : Prop := ∀ x ∈ accesses i s, s.platform.mapped x.address = true

/-- The length in bytes of the destination words, from ARG1 on: the block of DEC64, the COUNT words of MOVE, none of ROUND
(R69). -/
def destinationBytes (i : Instr) (s : State) : Nat :=
  match i with
  | .round => 0
  | .dec64 => 8
  | .move => (moveForm .move s).elim 0 fun f => 4 * f.2
  | .moveCopy count => 4 * count.toNat
  | .moveFill count => 4 * count.toNat

/-- A byte address lies in a command's destination words (R69). -/
def InDestination (i : Instr) (s : State) (x : Word) : Prop :=
  ∃ dst, s.arg1.get? = some dst ∧ dst.toNat ≤ x.toNat ∧ x.toNat < dst.toNat + destinationBytes i s

/-! ## Frames -/

/-- ARG0, ARG1 and ARG2 are invalid (R36). -/
abbrev ArgsInvalid (t : State) : Prop := t.arg0.get? = none ∧ t.arg1.get? = none ∧ t.arg2.get? = none

/-- What no command changes: the platform, the host's statements to come and what the host's reads returned. -/
abbrev HostKept (s t : State) : Prop :=
  t.platform = s.platform ∧ t.pending = s.pending ∧ t.replies = s.replies

/-- What a command that completes leaves as it was, besides the registers, the trace and memory. -/
abbrev NoFault (s t : State) : Prop :=
  t.status = s.status ∧ t.faddr = s.faddr ∧ t.undef = s.undef ∧ t.faultLog = s.faultLog ∧ t.draws = s.draws

/-- The value STATUS takes for each cause, written out from the table of codes (R201, R210). -/
def faultStatus : Cause → Word
  | .illegalCommand => 0x00000011#32
  | .misaligned => 0x00000021#32
  | .addressWrap => 0x00000031#32
  | .busError => 0x00000041#32

/-- A block fault is recorded and nothing else is (R210). -/
abbrev Recorded (s t : State) (c : Cause) (info : Word) : Prop :=
  t.status = faultStatus c ∧ t.faddr = info ∧ t.faultLog = s.faultLog ++ [(c, info)] ∧
  t.undef = s.undef ∧ t.result.get? = none ∧ ArgsInvalid t

/-- A block fault taken before any access (R211). -/
abbrev PreciseFault (s t : State) (c : Cause) (info : Word) : Prop :=
  Recorded s t c info ∧ t.mem = s.mem ∧ t.trace = s.trace ∧ t.draws = s.draws ∧ HostKept s t

/-- A model fault recorded with no access and no block fault (R206, R207). -/
abbrev ModelFault (s t : State) (r : Reason) : Prop :=
  t.undef = s.undef.insert r ∧ t.trace = s.trace ∧ t.faultLog = s.faultLog ∧ HostKept s t

/-- The host's next statement, and the state it acts on. -/
abbrev Next (s : State) (st : HostStmt) (u : State) : Prop :=
  s.pending = st :: u.pending ∧ u = { s with pending := u.pending }

/-- The offsets the window refuses (R29). -/
abbrev RefusedOffset (offset : Word) : Prop := offset = 0x1C#32 ∨ offset.toNat % 4 ≠ 0 ∨ 0x20 ≤ offset.toNat

/-- STATUS and FADDR record the last block fault wherever the registers are defined: the invariant of R27, R28, R210. -/
abbrev FaultInv (s : State) : Prop := s.Defined → s.FaultRecorded

end Sys2Proof.Spec

open Sys2Proof Sys2Proof.Machine Sys2Proof.Spec

/-! ## Encoding -/

/-- Decode and encode agree on every well-formed command, with every COUNT a control word can spell (30_encoding.md R80,
R81, R82). -/
def Obligations.DecodeOfEncode : Prop := ∀ i, WellFormed i = true → decode (encode i) = .command i

/-- R81, R82: whatever words are issued, the command they decode to is well formed, and its encoding is a pair of words
that decodes to it again. -/
def Obligations.DecodedCommandsAreEncodable : Prop :=
  ∀ e i, decode e = .command i → WellFormed i = true ∧ decode (encode i) = .command i ∧
    (encode i).command = e.command

/-- R82: COUNT is CTRL[31:25], a zero, CTRL[23:0]; it lies in 0..0xFEFFFFFF with bit 24 zero; FILL is CTRL[24]; and FILL
= 1 selects fill mode, FILL = 0 copy mode. -/
def Obligations.ControlWordFields : Prop :=
  ∀ ctrl : Word,
    controlCount ctrl = (ctrl.extractLsb' 25 7 ++ 0#1 ++ ctrl.extractLsb' 0 24 : BitVec (7 + 1 + 24)) ∧
    controlCount ctrl = ctrl &&& 0xFEFFFFFF#32 ∧
    (controlCount ctrl).toNat ≤ 0xFEFFFFFF ∧ (controlCount ctrl).getLsbD 24 = false ∧
    controlFill ctrl = ctrl.getLsbD 24 ∧
    (ctrl.getLsbD 24 = true → decode ⟨0x00000003#32, some ctrl⟩ = .command (.moveFill (controlCount ctrl))) ∧
    (ctrl.getLsbD 24 = false → decode ⟨0x00000003#32, some ctrl⟩ = .command (.moveCopy (controlCount ctrl)))

/-- Some words written out from the spec's encodings, one per row of the opcode table, and the illegal words of V-HOST-5
to V-HOST-9. That a table word which is one of the three command words is read as format CMD, and any other as format
MOVCTL, is the model's choice (notes/assumptions/2.md): the clauses about decodeTableWord rest on it, the others do not. -/
def Obligations.SampleWordsDecode : Prop :=
  decodeCommand 0x00000001#32 = .command .round ∧ decodeCommand 0x00000002#32 = .command .dec64 ∧
  decodeCommand 0x00000003#32 = .command .move ∧ decodeControl 0xFE000000#32 = .moveCopy 0xFE000000#32 ∧
  decodeControl 0x01000004#32 = .moveFill 0x00000004#32 ∧ decodeControl 0xFFFFFFFF#32 = .moveFill 0xFEFFFFFF#32 ∧
  decodeCommand 0x00000000#32 = .illegalCommand ∧ decodeCommand 0x00000101#32 = .illegalCommand ∧
  decodeCommand 0x000000FF#32 = .illegalCommand ∧ decodeCommand 0x80000001#32 = .illegalCommand ∧
  decodeCommand 0x00000004#32 = .illegalCommand ∧
  decodeTableWord 32 0x00000001 = some .round ∧ decodeTableWord 32 0x00000002 = some .dec64 ∧
  decodeTableWord 32 0x00000003 = some .move ∧ decodeTableWord 32 0xFE000000 = some (.moveCopy 0xFE000000#32) ∧
  decodeTableWord 32 0x01000004 = some (.moveFill 0x00000004#32) ∧
  decodeTableWord 32 0xFFFFFFFF = some (.moveFill 0xFEFFFFFF#32)

/-! ## One step -/

/-- R26, R63: with STATUS.FAULT = 0, when the host's next statement writes a command word to CMD, one step runs exactly
the command it decodes to, on the state with that statement taken; and where the command is MOVE and ARG2 is valid, that
is the mode its control word selects (R160). -/
def Obligations.StepRunsTheDecodedCommand : Prop :=
  ∀ (s u : State) (c : Word) (i : Instr),
    Next s (.windowWrite 32 0x00#32 c) u → s.status.getLsbD 0 = false → decode ⟨c, s.arg2.get?⟩ = .command i →
    step s = exec i u

/-- 10_state.md R26 and 60_exceptions.md R212: with STATUS.FAULT = 1 a write to CMD is ignored: the step takes the
statement and changes nothing else, and no access is made. -/
def Obligations.FaultedBlockIgnoresCommands : Prop :=
  ∀ (s u : State) (c : Word),
    Next s (.windowWrite 32 0x00#32 c) u → s.status.getLsbD 0 = true → step s = .next u

/-- R202: a write of a word that is no command, with STATUS.FAULT = 0, raises ILLEGAL_COMMAND with the word as its
information, whether or not an argument register is valid; no memory is accessed, and the registers become invalid. -/
def Obligations.IllegalCommandRaises : Prop :=
  ∀ (s u : State) (c : Word),
    Next s (.windowWrite 32 0x00#32 c) u → s.status.getLsbD 0 = false →
    c ≠ 0x00000001#32 → c ≠ 0x00000002#32 → c ≠ 0x00000003#32 →
    ∃ t, step s = .next t ∧ PreciseFault u t .illegalCommand c

/-! ## ROUND -/

/-- R105, through ROUND: with its operands valid, SB a multiple of 4, the schedule below 2^32 and the four words read
Mapped, ROUND completes with RESULT = tA + (tB XOR (tD + tC)), K[i] being the words at SB + 4*i. It makes the four reads
and no other access, and changes nothing but RESULT, the three argument registers and the trace. -/
def Obligations.RoundComputesF : Prop :=
  ∀ (s : State) (sb w : Word),
    s.arg0.get? = some sb → s.arg1.get? = some w → sb.toNat % 4 = 0 → sb.toNat + 4168 ≤ 2 ^ 32 →
    (∀ x ∈ roundReads sb w, s.platform.mapped x.address = true) →
    ∃ t, exec .round s = .next t ∧ t.result.get? = some (roundF (schedule s sb) w) ∧ ArgsInvalid t ∧
      t.mem = s.mem ∧ t.trace = s.trace ++ roundReads sb w ∧ NoFault s t ∧ HostKept s t

/-- R106: the four reads of F are those of S_A[b0], S_B[b1], S_C[b2], S_D[b3] in that order and at four different
addresses; ROUND makes them all where they are Mapped, and at the first that is not it ends with BUS_ERROR at that
address, the reads before it made and no later one. -/
def Obligations.RoundReadsInOrder : Prop :=
  ∀ (s : State) (sb w : Word),
    s.arg0.get? = some sb → s.arg1.get? = some w → sb.toNat % 4 = 0 → sb.toNat + 4168 ≤ 2 ^ 32 →
    (roundReads sb w).Nodup ∧
    (roundReads sb w = [.read (sb + 0xC48#32 + ((w.extractLsb' 0 8).zeroExtend 32 <<< 2)),
      .read (sb + 0x848#32 + ((w.extractLsb' 8 8).zeroExtend 32 <<< 2)),
      .read (sb + 0x448#32 + ((w.extractLsb' 16 8).zeroExtend 32 <<< 2)),
      .read (sb + 0x048#32 + ((w.extractLsb' 24 8).zeroExtend 32 <<< 2))]) ∧
    ((∀ x ∈ roundReads sb w, s.platform.mapped x.address = true) →
      ∃ t, exec .round s = .next t ∧ t.trace = s.trace ++ roundReads sb w ∧ NoFault s t) ∧
    (∀ made a later, roundReads sb w = made ++ .read a :: later →
      (∀ x ∈ made, s.platform.mapped x.address = true) → s.platform.mapped a = false →
      ∃ t, exec .round s = .next t ∧ Recorded s t .busError a ∧ t.trace = s.trace ++ made ∧ t.mem = s.mem)

/-- R109: the value of ROUND depends only on W and the 1024 S-box words of the schedule: two states that agree on these,
and on nothing else, give the same RESULT, wherever their schedules lie, and neither changes memory. -/
def Obligations.RoundDependsOnlyOnSBoxes : Prop :=
  ∀ (s s' : State) (sb sb' w : Word),
    s.arg0.get? = some sb → s'.arg0.get? = some sb' → s.arg1.get? = some w → s'.arg1.get? = some w →
    Checked .round s → Checked .round s' → AllMapped .round s → AllMapped .round s' →
    (∀ i, 18 ≤ i → i ≤ 1041 → schedule s sb i = schedule s' sb' i) →
    ∃ t t', exec .round s = .next t ∧ exec .round s' = .next t' ∧ t.result.get? = t'.result.get? ∧
      t.result.valid = true ∧ t.mem = s.mem ∧ t'.mem = s'.mem

/-! ## DEC64 -/

/-- R131, R132: with its checks passed and every word it accesses Mapped, DEC64 completes: the block becomes its
decryption, sixteen rounds at indices 17 down to 2 and the final step with K[1] and K[0]; every other byte of memory
keeps its value; RESULT and the argument registers become invalid; nothing else changes but the trace. -/
def Obligations.Dec64DecryptsTheBlock : Prop :=
  ∀ (s : State) (sb ba : Word),
    s.arg0.get? = some sb → s.arg1.get? = some ba → Checked .dec64 s → AllMapped .dec64 s →
    ∃ t, exec .dec64 s = .next t ∧
      (t.mem.readWord ba, t.mem.readWord (ba + 4#32)) =
        decryptF (schedule s sb) (s.mem.readWord ba, s.mem.readWord (ba + 4#32)) ∧
      (∀ x : Word, ¬(ba.toNat ≤ x.toNat ∧ x.toNat < ba.toNat + 8) → t.mem.read x = s.mem.read x) ∧
      t.result.get? = none ∧ ArgsInvalid t ∧ NoFault s t ∧ HostKept s t

/-- R133: a DEC64 that completes makes exactly 86 accesses, 84 reads and 2 writes, in the order of that rule. -/
def Obligations.Dec64AccessOrder : Prop :=
  ∀ (s : State) (sb ba : Word),
    s.arg0.get? = some sb → s.arg1.get? = some ba → Checked .dec64 s → AllMapped .dec64 s →
    ∃ t, exec .dec64 s = .next t ∧ t.trace = s.trace ++ decryptAccesses s sb ba ∧
      (decryptAccesses s sb ba).length = 86 ∧
      ((decryptAccesses s sb ba).filter fun x => x = .write x.address).length = 2

/-- R134: in one DEC64 that completes, the accesses to the P-array are the reads of K[17], K[16], ..., K[2], then K[1],
then K[0], each once, and 64 reads go to the S-boxes. -/
def Obligations.Dec64TraversesThePArray : Prop :=
  ∀ (s : State) (sb ba : Word),
    s.arg0.get? = some sb → s.arg1.get? = some ba → Checked .dec64 s → AllMapped .dec64 s →
    ∃ t made, exec .dec64 s = .next t ∧ t.trace = s.trace ++ made ∧
      (made.filter fun x => sb.toNat ≤ x.address.toNat && x.address.toNat < sb.toNat + 0x48) =
        [17, 16, 15, 14, 13, 12, 11, 10, 9, 8, 7, 6, 5, 4, 3, 2, 1, 0].map (fun i => Access.read (at4 sb i)) ∧
      (made.filter fun x => sb.toNat + 0x48 ≤ x.address.toNat && x.address.toNat < sb.toNat + 0x1048).length = 64

/-- The closed form of R136: when every S-box word is 0, L_final = K[0] XOR R_0 XOR K[16] XOR ... XOR K[2] and
R_final = K[1] XOR L_0 XOR K[17] XOR ... XOR K[3]. -/
def Obligations.Dec64WithZeroSBoxes : Prop :=
  ∀ (s : State) (sb ba : Word),
    s.arg0.get? = some sb → s.arg1.get? = some ba → Checked .dec64 s → AllMapped .dec64 s →
    (∀ i, 18 ≤ i → i ≤ 1041 → schedule s sb i = 0#32) →
    ∃ t, exec .dec64 s = .next t ∧
      t.mem.readWord ba = [0, 16, 14, 12, 10, 8, 6, 4, 2].foldl (fun v i => v ^^^ schedule s sb i)
        (s.mem.readWord (ba + 4#32)) ∧
      t.mem.readWord (ba + 4#32) = [1, 17, 15, 13, 11, 9, 7, 5, 3].foldl (fun v i => v ^^^ schedule s sb i)
        (s.mem.readWord ba)

/-- The inverse law (95_test_vectors.md X5): DEC64 on a block that holds the reference encryption of (l, r) under the
schedule at SB leaves (l, r) there, for every schedule and every block. -/
def Obligations.Dec64InvertsEncryption : Prop :=
  ∀ (s : State) (sb ba l r : Word),
    s.arg0.get? = some sb → s.arg1.get? = some ba → Checked .dec64 s → AllMapped .dec64 s →
    (s.mem.readWord ba, s.mem.readWord (ba + 4#32)) = encryptF (schedule s sb) (l, r) →
    ∃ t, exec .dec64 s = .next t ∧ t.mem.readWord ba = l ∧ t.mem.readWord (ba + 4#32) = r

/-- What DEC64 can learn: the decrypted block depends only on the 1042 schedule words and the two block words, wherever
they lie: two states that agree on these end with equal blocks (R234, R136). -/
def Obligations.Dec64DependsOnlyOnScheduleAndBlock : Prop :=
  ∀ (s s' : State) (sb sb' ba ba' : Word),
    s.arg0.get? = some sb → s'.arg0.get? = some sb' → s.arg1.get? = some ba → s'.arg1.get? = some ba' →
    Checked .dec64 s → Checked .dec64 s' → AllMapped .dec64 s → AllMapped .dec64 s' →
    (∀ i, i ≤ 1041 → schedule s sb i = schedule s' sb' i) →
    s.mem.readWord ba = s'.mem.readWord ba' → s.mem.readWord (ba + 4#32) = s'.mem.readWord (ba' + 4#32) →
    ∃ t t', exec .dec64 s = .next t ∧ exec .dec64 s' = .next t' ∧
      t.mem.readWord ba = t'.mem.readWord ba' ∧ t.mem.readWord (ba + 4#32) = t'.mem.readWord (ba' + 4#32)

/-- The block only reads the schedule (R34): however a ROUND or DEC64 ends, short of a model fault, no byte of the
schedule at SB changes, not even where a bus error leaves the block words unspecified. -/
def Obligations.ScheduleIsNeverWritten : Prop :=
  ∀ (i : Instr) (s t : State) (sb x : Word),
    i = .round ∨ i = .dec64 → s.arg0.get? = some sb → exec i s = .next t → ¬EndsUndefined s t →
    sb.toNat ≤ x.toNat → x.toNat < sb.toNat + 0x1048 → t.mem.read x = s.mem.read x

/-! ## MOVE -/

/-- MOVE in copy mode, as MOVE with FILL = 0 in ARG2 and as MOVE.COPY (R161, R165): with its checks passed and every word
Mapped it completes; word k of the source is read at SRC + (k << 2) and then written at DST + (k << 2), ascending, and no
such sum wraps; each destination word becomes the source word, every other byte keeps its value, RESULT and the argument
registers become invalid, and nothing else changes but the trace. -/
def Obligations.CopyMovesEveryWord : Prop :=
  ∀ (i : Instr) (s : State) (src dst : Word) (count : Nat),
    s.arg0.get? = some src → s.arg1.get? = some dst → moveForm i s = some (.copy, count) →
    Checked i s → AllMapped i s →
    ∃ t, exec i s = .next t ∧
      (∀ k < count, t.mem.readWord (at4 dst k) = s.mem.readWord (at4 src k)) ∧
      (∀ k < count, (at4 src k).toNat = src.toNat + 4 * k ∧ (at4 dst k).toNat = dst.toNat + 4 * k) ∧
      (∀ x : Word, ¬(dst.toNat ≤ x.toNat ∧ x.toNat < dst.toNat + 4 * count) → t.mem.read x = s.mem.read x) ∧
      t.trace = s.trace ++ (List.range count).flatMap (fun k => [.read (at4 src k), .write (at4 dst k)]) ∧
      t.result.get? = none ∧ ArgsInvalid t ∧ NoFault s t ∧ HostKept s t

/-- MOVE in fill mode, as MOVE with FILL = 1 in ARG2 and as MOVE.FILL (R162, R166): with its checks passed and every word
Mapped it completes; the source word is read again before each write; each of the COUNT destination words becomes the
source word, every other byte keeps its value, RESULT and the argument registers become invalid, and nothing else changes
but the trace. If SRC is not Mapped and COUNT > 0, the first read raises BUS_ERROR and no access is made. -/
def Obligations.FillBroadcastsTheSourceWord : Prop :=
  ∀ (i : Instr) (s : State) (src dst : Word) (count : Nat),
    s.arg0.get? = some src → s.arg1.get? = some dst → moveForm i s = some (.fill, count) → Checked i s →
    (AllMapped i s →
      ∃ t, exec i s = .next t ∧
        (∀ k < count, t.mem.readWord (at4 dst k) = s.mem.readWord src) ∧
        (∀ x : Word, ¬(dst.toNat ≤ x.toNat ∧ x.toNat < dst.toNat + 4 * count) → t.mem.read x = s.mem.read x) ∧
        t.trace = s.trace ++ (List.range count).flatMap (fun k => [.read src, .write (at4 dst k)]) ∧
        t.result.get? = none ∧ ArgsInvalid t ∧ NoFault s t ∧ HostKept s t) ∧
    (0 < count → s.platform.mapped src = false →
      ∃ t, exec i s = .next t ∧ Recorded s t .busError src ∧ t.trace = s.trace)

/-- R163: a MOVE with COUNT = 0 makes no memory access, in either mode; it still checks the alignment of SRC and DST, and
it still makes the argument registers and RESULT invalid. -/
def Obligations.MoveOfNothing : Prop :=
  ∀ (i : Instr) (s : State) (mode : MoveMode) (src dst : Word),
    s.arg0.get? = some src → s.arg1.get? = some dst → moveForm i s = some (mode, 0) →
    (src.toNat % 4 = 0 → dst.toNat % 4 = 0 →
      ∃ t, exec i s = .next t ∧ t.mem = s.mem ∧ t.trace = s.trace ∧ t.result.get? = none ∧ ArgsInvalid t ∧
        NoFault s t ∧ HostKept s t) ∧
    (src.toNat % 4 ≠ 0 → ∃ t, exec i s = .next t ∧ PreciseFault s t .misaligned src) ∧
    (src.toNat % 4 = 0 → dst.toNat % 4 ≠ 0 → ∃ t, exec i s = .next t ∧ PreciseFault s t .misaligned dst)

/-- Repeating a MOVE that completed, with its arguments written again, leaves every byte of memory as it was: a copy whose
ranges do not overlap, and a fill (R60). -/
def Obligations.RepeatedMoveChangesNothing : Prop :=
  ∀ (i : Instr) (s : State) (mode : MoveMode) (src dst : Word) (count : Nat),
    s.arg0.get? = some src → s.arg1.get? = some dst → moveForm i s = some (mode, count) →
    Checked i s → AllMapped i s →
    ∃ t u, exec i s = .next t ∧ exec i { t with arg0 := s.arg0, arg1 := s.arg1, arg2 := s.arg2 } = .next u ∧
      ∀ x : Word, u.mem.read x = t.mem.read x

/-- R168: MOVE always ends, in whichever mode and state, and makes at most 2*COUNT accesses. -/
def Obligations.MoveAlwaysEnds : Prop :=
  ∀ (i : Instr) (s : State) (mode : MoveMode) (count : Nat),
    WellFormed i = true → moveForm i s = some (mode, count) →
    ∃ t made, exec i s = .next t ∧ t.trace = s.trace ++ made ∧ made.length ≤ 2 * count ∧
      2 * count ≤ 2 * 0xFEFFFFFF

/-! ## Faults of an operation -/

/-- R203: an address operand that is not a multiple of 4 raises MISALIGNED before any access, with the first such operand
in the order SB, BA or SRC, DST as its information; MOVE checks this whatever COUNT is. -/
def Obligations.MisalignedOperandRaises : Prop :=
  ∀ (i : Instr) (s : State) (ops : List Word) (a : Word),
    addressOperands i s = some ops → ops.find? (fun a => a.toNat % 4 ≠ 0) = some a →
    ∃ t, exec i s = .next t ∧ PreciseFault s t .misaligned a

/-- R204: a range that ends above 2^32 raises ADDRESS_WRAP before any access, with the base of the first such range in
operand order as its information. -/
def Obligations.WrappingRangeRaises : Prop :=
  ∀ (i : Instr) (s : State) (base : Word) (bytes : Nat),
    Aligned i s → (ranges i s).find? (fun r => 2 ^ 32 < r.1.toNat + r.2) = some (base, bytes) →
    ∃ t, exec i s = .next t ∧ PreciseFault s t .addressWrap base

/-- R205: with every check passed, the first access whose word is not Mapped raises BUS_ERROR with its address: the
accesses before it are made, and no later one. A word of a window the platform maps into memory is not Mapped (R58). -/
def Obligations.FirstUnmappedAccessRaises : Prop :=
  (∀ (i : Instr) (s : State) (made later : List Access) (x : Access),
    Checked i s → accesses i s = made ++ x :: later →
    (∀ y ∈ made, s.platform.mapped y.address = true) → s.platform.mapped x.address = false →
    ∃ t, exec i s = .next t ∧ Recorded s t .busError x.address ∧ t.trace = s.trace ++ made ∧ HostKept s t) ∧
  (∀ (p : Platform) (base a : Word), p.coreBase = some base → base.toNat ≤ a.toNat →
    a.toNat < base.toNat + 0x20 → p.mapped a = false)

/-- R69: a block fault other than BUS_ERROR leaves memory as it was; BUS_ERROR leaves the Mapped destination bytes with
the free values of one draw and every other byte as it was. The statement holds whatever the free values are. -/
def Obligations.MemoryAfterABlockFault : Prop :=
  ∀ (c : Word) (s t : State) (cause : Cause) (info : Word),
    writeCommand c s = .next t → t.faultLog = s.faultLog ++ [(cause, info)] →
    (cause ≠ .busError → t.mem = s.mem) ∧
    (cause = .busError → ∀ (i : Instr) (x : Word), decodeCommand c = .command i →
      (¬InDestination i s x → t.mem.read x = s.mem.read x) ∧
      (InDestination i s x → s.platform.mapped x = true →
        t.mem.read x = Config.freeByte s.draws x.toNat))

/-- R206: a command that reads an invalid argument register ends in the model fault UNDEFINED_OPERAND: UNDEF holds the
reason, no access is made and no block fault is recorded. ROUND and DEC64 read ARG0 and ARG1, MOVE all three. What
the registers and memory hold then is free (R37). -/
def Obligations.InvalidOperandIsAModelFault : Prop :=
  ∀ (i : Instr) (s : State), addressOperands i s = none →
    ∃ t, exec i s = .next t ∧ ModelFault s t .undefinedOperand

/-- R135, R164: a DEC64 whose block overlaps its schedule and a MOVE with COUNT > 0 whose ranges overlap end in the model
fault PRECONDITION, with no access made and no block fault recorded. -/
def Obligations.OverlapIsAModelFault : Prop :=
  ∀ (i : Instr) (s : State), Aligned i s → InRange i s → Overlap i s →
    ∃ t, exec i s = .next t ∧ ModelFault s t .precondition

/-! ## Rules over all commands -/

/-- R36: at the end of every command that runs, and of an illegal one, all three argument registers are invalid, whether
it completes or raises a block fault; an ignored write to CMD changes nothing. A model fault that ends the command leaves
them undefined instead (R37). -/
def Obligations.ArgumentsEndInvalid : Prop :=
  ∀ (c : Word) (s : State), ∃ t, writeCommand c s = .next t ∧
    (s.status.getLsbD 0 = false → EndsUndefined s t ∨ ArgsInvalid t) ∧
    (s.status.getLsbD 0 = true → t = s)

/-- RESULT is valid after a command that runs exactly when the command is ROUND and it completed; every other end but
a model fault makes it invalid (R25). -/
def Obligations.OnlyCompletedRoundMakesResultValid : Prop :=
  ∀ (c : Word) (s t : State), s.status.getLsbD 0 = false → writeCommand c s = .next t → ¬EndsUndefined s t →
    (t.result.get?.isSome = true ↔ c = 0x00000001#32 ∧ t.faultLog = s.faultLog)

/-- After a command that ended with STATUS.FAULT = 0, writing any of the three command words again without writing the
argument registers ends in UNDEFINED_OPERAND (R236). -/
def Obligations.StaleArgumentsAreUndefined : Prop :=
  ∀ (c c' : Word) (s t : State), s.status.getLsbD 0 = false → writeCommand c s = .next t → ¬EndsUndefined s t →
    t.status.getLsbD 0 = false → decodeCommand c' ≠ .illegalCommand →
    ∃ u, writeCommand c' t = .next u ∧ ModelFault t u .undefinedOperand

/-- R52: every access any command adds to the trace, however it ends, is at an address that is a multiple of 4; and its
word is Mapped. -/
def Obligations.EveryAccessIsAlignedAndMapped : Prop :=
  ∀ (i : Instr) (s t : State), exec i s = .next t →
    ∃ made, t.trace = s.trace ++ made ∧
      ∀ x ∈ made, x.address.toNat % 4 = 0 ∧ s.platform.mapped x.address = true

/-- No command touches the host's side: the platform, the statements to come and the values the host's reads returned
stay, however the command ends, and FAULTLOG grows by at most one entry. -/
def Obligations.CommandsLeaveTheHostAlone : Prop :=
  ∀ (i : Instr) (s : State), ∃ t, exec i s = .next t ∧ HostKept s t ∧
    (t.faultLog = s.faultLog ∨ ∃ e, t.faultLog = s.faultLog ++ [e])

/-! ## The register window -/

/-- R24, with the other registers of the window: a 32-bit read of ARGn or RESULT returns its value while it is valid, and
is HOST_UNDEFINED_READ with no value while it is not; CMD reads as zero, STATUS and FADDR as they are (R25-R28). Nothing
else changes: a read invalidates nothing. -/
def Obligations.RegisterReads : Prop :=
  ∀ (s u : State) (offset : Word) (r : Reg),
    Next s (.windowRead 32 offset) u →
    (offset = 0x04#32 ∧ r = s.arg0 ∨ offset = 0x08#32 ∧ r = s.arg1 ∨ offset = 0x0C#32 ∧ r = s.arg2 ∨
      offset = 0x10#32 ∧ r = s.result →
      (∀ v, r.get? = some v → step s = .next { u with replies := s.replies ++ [some v] }) ∧
      (r.get? = none →
        step s = .next { u with replies := s.replies ++ [none], undef := s.undef.insert .hostUndefinedRead })) ∧
    (offset = 0x00#32 → step s = .next { u with replies := s.replies ++ [some 0x00000000#32] }) ∧
    (offset = 0x14#32 → step s = .next { u with replies := s.replies ++ [some s.status] }) ∧
    (offset = 0x18#32 → step s = .next { u with replies := s.replies ++ [some s.faddr] })

/-- R23, with the other registers of the window: a 32-bit write of ARGn sets its value as given and makes it valid; writes
of RESULT, STATUS and FADDR are ignored (R25, R27, R28). Nothing else changes, whatever STATUS holds. -/
def Obligations.RegisterWrites : Prop :=
  ∀ (s u : State) (offset v : Word),
    Next s (.windowWrite 32 offset v) u →
    (offset = 0x04#32 → step s = .next { u with arg0 := ⟨v, true⟩ }) ∧
    (offset = 0x08#32 → step s = .next { u with arg1 := ⟨v, true⟩ }) ∧
    (offset = 0x0C#32 → step s = .next { u with arg2 := ⟨v, true⟩ }) ∧
    (offset = 0x10#32 ∨ offset = 0x14#32 ∨ offset = 0x18#32 → step s = .next u)

/-- R29, R30: a read or a write of the reserved slot 0x1C, of an offset that is no multiple of 4 or not below 0x20, or at
another width than 32 bits, is refused: HOST_UNDEFINED_READ with no value, or HOST_UNDEFINED_WRITE; nothing else
changes. -/
def Obligations.WindowRefusals : Prop :=
  ∀ (s u : State) (width : Nat) (offset v : Word),
    width ≠ 32 ∨ RefusedOffset offset →
    (Next s (.windowRead width offset) u →
      step s = .next { u with replies := s.replies ++ [none], undef := s.undef.insert .hostUndefinedRead }) ∧
    (Next s (.windowWrite width offset v) u →
      step s = .next { u with undef := s.undef.insert .hostUndefinedWrite })

/-! ## The host's memory accesses -/

/-- R53: a host's STW of a word to memory leaves the byte at a as bits 7:0 and the byte at a+3 as bits 31:24, every other
byte as it was, and nothing else changed; a host's LDW returns {byte[a+3], byte[a+2], byte[a+1], byte[a]}. The address
lies outside a mapped window and its bytes are Mapped. A host's write of one byte changes that byte and nothing else, and
a read of one byte returns it. That the address of a word may be any, and the byte accesses themselves, are the model's
choice (notes/assumptions/10.md). -/
def Obligations.HostWordsAreLittleEndian : Prop :=
  ∀ (s u : State) (a v : Word) (b : Byte),
    s.platform.windowOffset a = none → s.platform.mapped a = true →
    (a.toNat + 4 ≤ 2 ^ 32 → s.platform.mapped (a + 3#32) = true →
      (Next s (.stw a v) u →
        ∃ t, step s = .next t ∧ t = { u with mem := t.mem } ∧ t.mem.read a = v.extractLsb' 0 8 ∧
          t.mem.read (a + 1#32) = v.extractLsb' 8 8 ∧ t.mem.read (a + 2#32) = v.extractLsb' 16 8 ∧
          t.mem.read (a + 3#32) = v.extractLsb' 24 8 ∧
          ∀ x : Word, x ∉ wordBytes a → t.mem.read x = s.mem.read x) ∧
      (Next s (.ldw a) u →
        step s = .next { u with replies := s.replies ++
          [some (s.mem.read (a + 3#32) ++ s.mem.read (a + 2#32) ++ s.mem.read (a + 1#32) ++ s.mem.read a)] })) ∧
    (Next s (.stb a b) u →
      ∃ t, step s = .next t ∧ t = { u with mem := t.mem } ∧ t.mem.read a = b ∧
        ∀ x : Word, x ≠ a → t.mem.read x = s.mem.read x) ∧
    (Next s (.ldb a) u →
      step s = .next { u with replies := s.replies ++ [some ((s.mem.read a).zeroExtend 32)] })

/-- R63: a host's LDW right after its STW to the same address returns the word written, and right after an STW to a
different aligned address the word that was there before. -/
def Obligations.LoadReturnsTheLastStore : Prop :=
  ∀ (s : State) (a b v : Word) (rest : List HostStmt),
    s.pending = .stw a v :: .ldw b :: rest → a.toNat % 4 = 0 → b.toNat % 4 = 0 →
    s.platform.windowOffset a = none → s.platform.windowOffset b = none →
    s.platform.mapped a = true → s.platform.mapped b = true →
    ∃ t, core.run 2 s = .next t ∧ t.pending = rest ∧
      t.replies = s.replies ++ [some (if b = a then v else s.mem.readWord b)]

/-- The model's choices, not the spec's: a host word access inside a window mapped at CORE_BASE is a 32-bit access to the
window at its offset, and a host byte access there is one of another width, which the window refuses (R30;
notes/assumptions/11.md); a byte access at an address the platform does not map, and a word access whose bytes are not
all Mapped or pass 2^32, stop the machine (notes/assumptions/9.md, notes/assumptions/10.md). -/
def Obligations.HostAccessOutsideMemory : Prop :=
  ∀ (s u : State) (base a v : Word) (b : Byte),
    (s.platform.coreBase = some base → base.toNat ≤ a.toNat → a.toNat < base.toNat + 0x20 →
      (Next s (.stw a v) u → step s = writeWindow 32 (a - base) v u) ∧
      (Next s (.ldw a) u → step s = .next (readWindow 32 (a - base) u)) ∧
      (Next s (.stb a b) u → step s = .next { u with undef := s.undef.insert .hostUndefinedWrite }) ∧
      (Next s (.ldb a) u →
        step s = .next { u with replies := s.replies ++ [none], undef := s.undef.insert .hostUndefinedRead })) ∧
    (s.platform.windowOffset a = none → s.platform.mapped a = false →
      (Next s (.stb a b) u → step s = .fault (.hostWriteUnmapped a)) ∧
      (Next s (.ldb a) u → step s = .fault (.hostReadUnmapped a))) ∧
    (s.platform.windowOffset a = none →
      s.platform.mapped a = false ∨ s.platform.mapped (a + 3#32) = false ∨ 2 ^ 32 < a.toNat + 4 →
      (Next s (.stw a v) u → step s = .fault (.hostWriteUnmapped a)) ∧
      (Next s (.ldw a) u → step s = .fault (.hostReadUnmapped a)))

/-! ## Reset -/

/-- R230: the reset input sets the registers to their reset values, ARG0-ARG2 and RESULT invalid, STATUS and FADDR zero,
and leaves memory, UNDEF and FAULTLOG as they were; and no other statement clears STATUS.FAULT. -/
def Obligations.ResetInput : Prop :=
  (∀ (s u : State), Next s .reset u →
    ∃ t, step s = .next t ∧ ArgsInvalid t ∧ t.result.get? = none ∧ t.status = 0x00000000#32 ∧
      t.faddr = 0x00000000#32 ∧ t.mem = s.mem ∧ t.undef = s.undef ∧ t.faultLog = s.faultLog ∧
      t.trace = s.trace ∧ t.draws = s.draws ∧ HostKept u t) ∧
  (∀ (s t : State), s.status.getLsbD 0 = true → step s = .next t → t.status.getLsbD 0 = false →
    s.pending.head? = some .reset)

/-- With STATUS.FAULT = 1, no statement but the reset input changes STATUS, FADDR, FAULTLOG or RESULT, runs an operation
or makes an access (R212). -/
def Obligations.FaultsStayUntilReset : Prop :=
  ∀ (s t : State), s.status.getLsbD 0 = true → s.pending.head? ≠ some .reset → step s = .next t →
    t.status = s.status ∧ t.faddr = s.faddr ∧ t.faultLog = s.faultLog ∧ t.result = s.result ∧ t.trace = s.trace

/-! ## Invariants of every step -/

/-- STATUS is zero or 0x1 OR (c << 4) for c in 1..4, in whatever state a step starts from that has a legal STATUS. That
this holds through a model fault is the model's choice (notes/assumptions/7.md). -/
def Obligations.StatusStaysLegal : Prop :=
  ∀ s t : State, statusLegal s.status = true → step s = .next t → statusLegal t.status = true

/-- Memory keeps its canonical form through every step. -/
def Obligations.MemoryStaysCanonical : Prop :=
  ∀ s t : State, s.mem.wf → step s = .next t → t.mem.wf

/-- While no model fault has ended an operation, STATUS and FADDR are both zero or record the last entry of FAULTLOG, and
every step keeps this (R27, R28, R210). -/
def Obligations.FaultRegistersAgreeWithTheLog : Prop :=
  ∀ s t : State, FaultInv s → step s = .next t → FaultInv t

/-- The first reset leaves ARG0-ARG2 and RESULT invalid, STATUS and FADDR zero, UNDEF and FAULTLOG empty (R38), whatever
the platform, its memory and the host's statements are; the invariants of STATUS and of FAULTLOG hold there, and that of
memory if the platform's memory has it. -/
def Obligations.RunsStartInTheResetState : Prop :=
  ∀ (p : Platform) (m : Memory) (program : List HostStmt),
    ArgsInvalid (State.startRun p m program) ∧ (State.startRun p m program).result.get? = none ∧
    (State.startRun p m program).status = 0x00000000#32 ∧ (State.startRun p m program).faddr = 0x00000000#32 ∧
    (State.startRun p m program).Clean ∧ (State.startRun p m program).mem = m ∧
    statusLegal (State.startRun p m program).status = true ∧ FaultInv (State.startRun p m program) ∧
    State.reset.mem.wf

/-- A run that ends clean was clean at its start and at every step, however many steps it has (R220). That a step only
adds to UNDEF and FAULTLOG is LogsOnlyGrow. -/
def Obligations.CleanEndMeansCleanRun : Prop :=
  ∀ (n k : Nat) (s u t : State), core.run n s = .next u → core.run k u = .next t → t.Clean → u.Clean ∧ s.Clean

/-- No step changes the platform (R5), and a step takes one pending statement at most. -/
def Obligations.StepsKeepThePlatform : Prop :=
  ∀ s t : State, step s = .next t → t.platform = s.platform ∧ t.pending = s.pending.tail

/-! ## Assembly -/

/-- R88: each operation statement expands to the host writes of its row, the registers named by their window offsets
(R87, R21); and running the expansion with STATUS.FAULT = 0 writes the operands to the argument registers and runs the
command on them. -/
def Obligations.OperationStatementsExpand : Prop :=
  (∀ x y z : Word,
    asmRound x y =
      [.windowWrite 32 0x04#32 x, .windowWrite 32 0x08#32 y, .windowWrite 32 0x00#32 0x00000001#32] ∧
    asmDec64 x y =
      [.windowWrite 32 0x04#32 x, .windowWrite 32 0x08#32 y, .windowWrite 32 0x00#32 0x00000002#32] ∧
    asmMove x y z =
      [.windowWrite 32 0x04#32 x, .windowWrite 32 0x08#32 y, .windowWrite 32 0x0C#32 z,
        .windowWrite 32 0x00#32 0x00000003#32]) ∧
  ∀ (s : State) (x y z : Word) (rest : List HostStmt), s.status.getLsbD 0 = false →
    core.run 3 { s with pending := asmRound x y ++ rest } =
      exec .round { s with arg0 := ⟨x, true⟩, arg1 := ⟨y, true⟩, pending := rest } ∧
    core.run 3 { s with pending := asmDec64 x y ++ rest } =
      exec .dec64 { s with arg0 := ⟨x, true⟩, arg1 := ⟨y, true⟩, pending := rest } ∧
    core.run 4 { s with pending := asmMove x y z ++ rest } =
      exec .move { s with arg0 := ⟨x, true⟩, arg1 := ⟨y, true⟩, arg2 := ⟨z, true⟩, pending := rest }

/-- R89: the assembler refuses COPY and FILL of an n with bit 24 set and of no other; of an n it accepts, COPY expands to
the MOVE statement with n and FILL to the one with n OR 0x01000000, and running the expansion with STATUS.FAULT = 0 runs
MOVE in copy mode, or in fill mode, with COUNT = n. -/
def Obligations.CopyAndFillExpand : Prop :=
  ∀ src dst n : Word,
    (n.getLsbD 24 = true → asmCopy src dst n = none ∧ asmFill src dst n = none) ∧
    (n.getLsbD 24 = false →
      asmCopy src dst n = some (asmMove src dst n) ∧ asmFill src dst n = some (asmMove src dst (n ||| 0x01000000#32)) ∧
      ∀ s : State, s.status.getLsbD 0 = false →
        core.run 4 { s with pending := asmMove src dst n } =
          exec (.moveCopy n) { s with arg0 := ⟨src, true⟩, arg1 := ⟨dst, true⟩, arg2 := ⟨n, true⟩, pending := [] } ∧
        core.run 4 { s with pending := asmMove src dst (n ||| 0x01000000#32) } =
          exec (.moveFill n) { s with
            arg0 := ⟨src, true⟩, arg1 := ⟨dst, true⟩, arg2 := ⟨n ||| 0x01000000#32, true⟩, pending := [] })

/-! ## Block faults and bookkeeping -/

/-- R210, with the codes of R201's table: when a write to CMD records a block fault, STATUS is 0x00000001 OR the cause's
code << 4, the code being 1 for ILLEGAL_COMMAND, 2 for MISALIGNED, 3 for ADDRESS_WRAP and 4 for BUS_ERROR; FADDR is the
information recorded, the argument registers and RESULT become invalid and UNDEF stays. FAULT was 0 before, and a legal
command never raises ILLEGAL_COMMAND. -/
def Obligations.CauseCodes : Prop :=
  ∀ (c : Word) (s t : State) (cause : Cause) (info : Word),
    writeCommand c s = .next t → t.faultLog = s.faultLog ++ [(cause, info)] →
    Recorded s t cause info ∧ s.status.getLsbD 0 = false ∧ t.status.getLsbD 0 = true ∧
    (t.status.extractLsb' 4 4).toNat =
      (match cause with
        | .illegalCommand => 1
        | .misaligned => 2
        | .addressWrap => 3
        | .busError => 4) ∧
    (cause = .illegalCommand ↔ decodeCommand c = .illegalCommand)

/-- A step only adds to FAULTLOG and UNDEF, whatever it runs: FAULTLOG keeps every entry in its place and gains at most
one, and every reason in UNDEF stays (R207, R210). -/
def Obligations.LogsOnlyGrow : Prop :=
  ∀ s t : State, step s = .next t →
    s.faultLog <+: t.faultLog ∧ t.faultLog.length ≤ s.faultLog.length + 1 ∧
    ∀ r : Reason, s.undef.has r = true → t.undef.has r = true
end

