-- ==== Sys2Proof/Laws/Memory.lean ====
section
/-! SUPPORT. Memory: a read after a write, and the canonical form that every memory operation keeps. -/

namespace Sys2Proof.Machine

/-! ## The list of cells -/

theorem lookupCell_insertCell (cs : List Host.Cell) (a x : Nat) (b : Byte) :
    lookupCell (insertCell cs a b) x = if x = a then some b else lookupCell cs x := by
  induction cs with
  | nil => by_cases h : x = a <;> simp_all [insertCell, lookupCell, eq_comm]
  | cons c cs ih =>
    simp only [insertCell]
    split
    · simp only [lookupCell, eq_comm (a := x)]
    · split
      · rename_i heq
        simp only [lookupCell, heq, eq_comm (a := x)]
        split_ifs <;> rfl
      · rename_i hne
        simp only [lookupCell, ih]
        split_ifs with h1 h2 <;> first | rfl | exact absurd (h1.trans h2) hne

theorem lookupCell_eraseCell (cs : List Host.Cell) (a x : Nat) :
    lookupCell (eraseCell cs a) x = if x = a then none else lookupCell cs x := by
  induction cs with
  | nil => simp [eraseCell, lookupCell]
  | cons c cs ih =>
    simp only [eraseCell] at ih ⊢
    by_cases h : c.1 = a
    · simp only [List.filter, h, bne_self_eq_false, ih, lookupCell]
      split_ifs <;> simp_all
    · have h' : (c.1 != a) = true := by simpa using h
      simp only [List.filter, h', lookupCell, ih]
      split_ifs <;> simp_all

theorem mem_insertCell {cs : List Host.Cell} {a : Nat} {b : Byte} {c : Host.Cell}
    (h : c ∈ insertCell cs a b) : c = (a, b) ∨ c ∈ cs := by
  induction cs with
  | nil => simpa [insertCell] using h
  | cons d cs ih =>
    simp only [insertCell] at h
    split at h
    · simpa using h
    · split at h
      · rcases List.mem_cons.1 h with h | h <;> simp [h]
      · rcases List.mem_cons.1 h with h | h
        · simp [h]
        · rcases ih h with h | h <;> simp [h]

theorem rising_insertCell {cs : List Host.Cell} (a : Nat) (b : Byte)
    (h : cs.Pairwise (fun c d => c.1 < d.1)) :
    (insertCell cs a b).Pairwise (fun c d => c.1 < d.1) := by
  induction cs with
  | nil => simp [insertCell]
  | cons d cs ih =>
    obtain ⟨hd, hcs⟩ := List.pairwise_cons.1 h
    simp only [insertCell]
    split
    · rename_i hlt
      refine List.pairwise_cons.2 ⟨fun c hc => ?_, h⟩
      rcases List.mem_cons.1 hc with rfl | hc
      · exact hlt
      · exact lt_trans hlt (hd c hc)
    · split
      · rename_i _ heq
        exact List.pairwise_cons.2 ⟨fun c hc => heq ▸ hd c hc, hcs⟩
      · rename_i hge hne
        refine List.pairwise_cons.2 ⟨fun c hc => ?_, ih hcs⟩
        rcases mem_insertCell hc with rfl | hc
        · simp only
          omega
        · exact hd c hc

/-! ## A byte read after a write -/

theorem Memory.rest_write (m : Memory) (a : Word) (b : Byte) : (m.write a b).rest = m.rest := by
  unfold Memory.write
  split <;> rfl

/-- A byte reads as the last byte written there (R51, R64). -/
theorem Memory.read_write (m : Memory) (a x : Word) (b : Byte) :
    (m.write a b).read x = if x = a then b else m.read x := by
  have hx : x.toNat = a.toNat ↔ x = a := BitVec.toNat_inj
  by_cases h : x = a
  · subst h
    by_cases hr : m.rest = .fixed b
    · simp [Memory.write, Memory.read, hr, lookupCell_eraseCell, Background.read]
    · simp [Memory.write, Memory.read, hr, lookupCell_insertCell]
  · by_cases hr : m.rest = .fixed b <;>
      simp [Memory.write, Memory.read, hr, lookupCell_eraseCell, lookupCell_insertCell, hx, h]

@[simp] theorem Memory.read_write_self (m : Memory) (a : Word) (b : Byte) : (m.write a b).read a = b := by
  simp [Memory.read_write]

theorem Memory.read_write_of_ne (m : Memory) {a x : Word} (b : Byte) (h : x ≠ a) :
    (m.write a b).read x = m.read x := by
  simp [Memory.read_write, h]

/-! ## Words -/

theorem read_writeWord_outside (m : Memory) (a v x : Word) (h : x ∉ wordBytes a) :
    (m.writeWord a v).read x = m.read x := by
  simp only [wordBytes, List.mem_cons, List.not_mem_nil, or_false, not_or] at h
  simp only [Memory.writeWord, Memory.read_write, h, if_false]

theorem read_drawWord_outside (m : Memory) (draw : Nat) (a x : Word) (h : x ∉ wordBytes a) :
    (m.drawWord draw a).read x = m.read x := by
  simp only [wordBytes, List.mem_cons, List.not_mem_nil, or_false, not_or] at h
  simp only [Memory.drawWord, Memory.read_write, h, if_false]

theorem word_of_bytes (v : Word) : byte3 v ++ byte2 v ++ byte1 v ++ byte0 v = v := by
  apply BitVec.eq_of_getLsbD_eq
  intro i hi
  simp only [byte0, byte1, byte2, byte3, BitVec.getLsbD_append, BitVec.getLsbD_extractLsb']
  split_ifs with h0 h1 h2
  · simp [h0]
  · have h : i - 8 < 8 := by omega
    simp [h, show 8 + (i - 8) = i by omega]
  · have h : i - 8 - 8 < 8 := by omega
    simp [h, show 16 + (i - 8 - 8) = i by omega]
  · have h : i - 8 - 8 - 8 < 8 := by omega
    simp [h, show 24 + (i - 8 - 8 - 8) = i by omega]

theorem read_writeWord_byte0 (m : Memory) (a v : Word) : (m.writeWord a v).read a = byte0 v := by
  simp [Memory.writeWord, Memory.read_write]

theorem read_writeWord_byte1 (m : Memory) (a v : Word) : (m.writeWord a v).read (a + 1#32) = byte1 v := by
  simp [Memory.writeWord, Memory.read_write]

theorem read_writeWord_byte2 (m : Memory) (a v : Word) : (m.writeWord a v).read (a + 2#32) = byte2 v := by
  simp [Memory.writeWord, Memory.read_write]

theorem read_writeWord_byte3 (m : Memory) (a v : Word) : (m.writeWord a v).read (a + 3#32) = byte3 v := by
  simp [Memory.writeWord]

/-- A word reads as the last word written there (R51, R64). -/
@[simp] theorem readWord_writeWord_self (m : Memory) (a v : Word) : (m.writeWord a v).readWord a = v := by
  rw [Memory.readWord, read_writeWord_byte0, read_writeWord_byte1, read_writeWord_byte2, read_writeWord_byte3,
    word_of_bytes]

/-- A word none of whose bytes a write reaches reads as before. -/
theorem readWord_congr {m n : Memory} {a : Word} (h : ∀ x ∈ wordBytes a, n.read x = m.read x) :
    n.readWord a = m.readWord a := by
  simp only [wordBytes, List.mem_cons, List.not_mem_nil, or_false, forall_eq_or_imp, forall_eq] at h
  simp [Memory.readWord, h]

/-- Two aligned words at different addresses share no byte (R52). -/
theorem wordBytes_disjoint {a b x : Word} (ha : a.toNat % 4 = 0) (hb : b.toNat % 4 = 0) (hne : a ≠ b)
    (hx : x ∈ wordBytes a) : x ∉ wordBytes b := by
  have hne' : a.toNat ≠ b.toNat := fun h => hne (BitVec.toNat_inj.1 h)
  have h1 : ∀ c : Word, c.toNat % 4 = 0 → ∀ y ∈ wordBytes c, y.toNat / 4 = c.toNat / 4 := by
    intro c hc y hy
    have hlt := c.isLt
    simp only [wordBytes, List.mem_cons, List.not_mem_nil, or_false] at hy
    rcases hy with rfl | rfl | rfl | rfl <;> simp [BitVec.toNat_add] <;> omega
  intro hx'
  have ea := h1 a ha x hx
  have eb := h1 b hb x hx'
  omega

/-! ## The canonical form -/

theorem Memory.wf_write {m : Memory} (h : m.wf) (a : Word) (b : Byte) : (m.write a b).wf := by
  obtain ⟨hs, hc⟩ := h
  unfold Memory.write
  split
  · refine ⟨hs.filter _, fun c hm => hc c (List.mem_of_mem_filter hm)⟩
  · rename_i hr
    refine ⟨rising_insertCell _ _ hs, fun c hm => ?_⟩
    rcases mem_insertCell hm with rfl | hm
    · exact ⟨a.isLt, hr⟩
    · exact hc c hm

theorem Memory.wf_writeWord {m : Memory} (h : m.wf) (a v : Word) : (m.writeWord a v).wf :=
  Memory.wf_write (Memory.wf_write (Memory.wf_write (Memory.wf_write h _ _) _ _) _ _) _ _

theorem Memory.wf_drawWord {m : Memory} (h : m.wf) (draw : Nat) (a : Word) : (m.drawWord draw a).wf :=
  Memory.wf_write (Memory.wf_write (Memory.wf_write (Memory.wf_write h _ _) _ _) _ _) _ _

theorem wf_drawWords (p : Platform) (draw : Nat) (base : Word) (count : Nat) {m : Memory} (h : m.wf) :
    (drawWords p draw base count m).wf := by
  induction count with
  | zero => exact h
  | succ n ih =>
    simp only [drawWords]
    split
    · exact Memory.wf_drawWord ih _ _
    · exact ih

theorem Memory.wf_empty (r : Background) : Memory.wf ⟨[], r⟩ := by simp [Memory.wf]

/-- Free values reach the destination words and nothing else (R69). -/
theorem read_drawWords_outside (p : Platform) (draw : Nat) (base : Word) (count : Nat) (m : Memory) (x : Word)
    (h : ∀ k < count, x ∉ wordBytes (wordAddress base k)) :
    (drawWords p draw base count m).read x = m.read x := by
  induction count with
  | zero => rfl
  | succ n ih =>
    have ih' := ih (fun k hk => h k (by omega))
    simp only [drawWords]
    split
    · rw [read_drawWord_outside _ _ _ _ (h n (by omega)), ih']
    · exact ih'

end Sys2Proof.Machine
end

