-- ==== Sys2Proof/Laws/Operands.lean ====
section
/-! SUPPORT. The checks on operands as arithmetic on addresses, and the address forms as sums. -/

namespace Sys2Proof.Machine

/-- An address operand is misaligned exactly when it is no multiple of 4 (R55). -/
theorem isMisaligned_iff (a : Word) : isMisaligned a = true ↔ a.toNat % 4 ≠ 0 := by
  have h : a.extractLsb' 0 2 = 0#2 ↔ a.toNat % 4 = 0 := by
    rw [← BitVec.toNat_inj]
    simp [BitVec.extractLsb'_toNat]
  rw [isMisaligned, bne_iff_ne, ne_eq, h]

theorem rangeWraps_iff (base : Word) (bytes : Nat) :
    rangeWraps base bytes = true ↔ 2 ^ 32 < base.toNat + bytes := by
  rw [rangeWraps, decide_eq_true_iff]

theorem rangesOverlap_iff (a : Word) (m : Nat) (b : Word) (n : Nat) :
    rangesOverlap a m b n = true ↔ a.toNat < b.toNat + n ∧ b.toNat < a.toNat + m := by
  rw [rangesOverlap, Bool.and_eq_true, decide_eq_true_iff, decide_eq_true_iff]

/-- Word k of a range lies 4*k bytes on, modulo 2^32 (R57). -/
theorem wordAddress_eq (base : Word) (k : Nat) : wordAddress base k = base + BitVec.ofNat 32 (4 * k) := by
  apply BitVec.eq_of_toNat_eq
  simp [wordAddress, add32, BitVec.toNat_add, BitVec.toNat_shiftLeft, Nat.shiftLeft_eq]
  omega

/-- Word k of a range that ends at or below 2^32 does not wrap (R56, R57). -/
theorem wordAddress_toNat {base : Word} {k : Nat} (h : base.toNat + 4 * k < 2 ^ 32) :
    (wordAddress base k).toNat = base.toNat + 4 * k := by
  rw [wordAddress_eq, BitVec.toNat_add, BitVec.toNat_ofNat, Nat.add_mod_mod, Nat.mod_eq_of_lt h]

/-- An S-box address lies 4*index bytes on from its table (R103). -/
theorem tableAddress_eq (sb offset : Word) (index : Byte) :
    tableAddress sb offset index = sb + BitVec.ofNat 32 (offset.toNat + 4 * index.toNat) := by
  apply BitVec.eq_of_toNat_eq
  have := index.isLt
  simp [tableAddress, add32, BitVec.toNat_add, BitVec.toNat_shiftLeft, Nat.shiftLeft_eq]
  omega

end Sys2Proof.Machine
end

