-- ==== Sys2Proof/Laws/State.lean ====
section
/-! SUPPORT. One lemma per field per update of State, so that no proof unfolds a record update. -/

namespace Sys2Proof.Machine

/-! ### record -/

@[simp] theorem State.record_arg0 (s : State) (x : Access) :
    (s.record x).arg0 = s.arg0 := rfl
@[simp] theorem State.record_arg1 (s : State) (x : Access) :
    (s.record x).arg1 = s.arg1 := rfl
@[simp] theorem State.record_arg2 (s : State) (x : Access) :
    (s.record x).arg2 = s.arg2 := rfl
@[simp] theorem State.record_result (s : State) (x : Access) :
    (s.record x).result = s.result := rfl
@[simp] theorem State.record_status (s : State) (x : Access) :
    (s.record x).status = s.status := rfl
@[simp] theorem State.record_faddr (s : State) (x : Access) :
    (s.record x).faddr = s.faddr := rfl
@[simp] theorem State.record_undef (s : State) (x : Access) :
    (s.record x).undef = s.undef := rfl
@[simp] theorem State.record_faultLog (s : State) (x : Access) :
    (s.record x).faultLog = s.faultLog := rfl
@[simp] theorem State.record_mem (s : State) (x : Access) :
    (s.record x).mem = s.mem := rfl
@[simp] theorem State.record_platform (s : State) (x : Access) :
    (s.record x).platform = s.platform := rfl
@[simp] theorem State.record_trace (s : State) (x : Access) :
    (s.record x).trace = s.trace ++ [x] := rfl
@[simp] theorem State.record_pending (s : State) (x : Access) :
    (s.record x).pending = s.pending := rfl
@[simp] theorem State.record_replies (s : State) (x : Access) :
    (s.record x).replies = s.replies := rfl
@[simp] theorem State.record_draws (s : State) (x : Access) :
    (s.record x).draws = s.draws := rfl

/-! ### recordAll -/

@[simp] theorem State.recordAll_arg0 (s : State) (xs : List Access) :
    (s.recordAll xs).arg0 = s.arg0 := rfl
@[simp] theorem State.recordAll_arg1 (s : State) (xs : List Access) :
    (s.recordAll xs).arg1 = s.arg1 := rfl
@[simp] theorem State.recordAll_arg2 (s : State) (xs : List Access) :
    (s.recordAll xs).arg2 = s.arg2 := rfl
@[simp] theorem State.recordAll_result (s : State) (xs : List Access) :
    (s.recordAll xs).result = s.result := rfl
@[simp] theorem State.recordAll_status (s : State) (xs : List Access) :
    (s.recordAll xs).status = s.status := rfl
@[simp] theorem State.recordAll_faddr (s : State) (xs : List Access) :
    (s.recordAll xs).faddr = s.faddr := rfl
@[simp] theorem State.recordAll_undef (s : State) (xs : List Access) :
    (s.recordAll xs).undef = s.undef := rfl
@[simp] theorem State.recordAll_faultLog (s : State) (xs : List Access) :
    (s.recordAll xs).faultLog = s.faultLog := rfl
@[simp] theorem State.recordAll_mem (s : State) (xs : List Access) :
    (s.recordAll xs).mem = s.mem := rfl
@[simp] theorem State.recordAll_platform (s : State) (xs : List Access) :
    (s.recordAll xs).platform = s.platform := rfl
@[simp] theorem State.recordAll_trace (s : State) (xs : List Access) :
    (s.recordAll xs).trace = s.trace ++ xs := rfl
@[simp] theorem State.recordAll_pending (s : State) (xs : List Access) :
    (s.recordAll xs).pending = s.pending := rfl
@[simp] theorem State.recordAll_replies (s : State) (xs : List Access) :
    (s.recordAll xs).replies = s.replies := rfl
@[simp] theorem State.recordAll_draws (s : State) (xs : List Access) :
    (s.recordAll xs).draws = s.draws := rfl

/-! ### withMem -/

@[simp] theorem State.withMem_arg0 (s : State) (m : Memory) :
    (s.withMem m).arg0 = s.arg0 := rfl
@[simp] theorem State.withMem_arg1 (s : State) (m : Memory) :
    (s.withMem m).arg1 = s.arg1 := rfl
@[simp] theorem State.withMem_arg2 (s : State) (m : Memory) :
    (s.withMem m).arg2 = s.arg2 := rfl
@[simp] theorem State.withMem_result (s : State) (m : Memory) :
    (s.withMem m).result = s.result := rfl
@[simp] theorem State.withMem_status (s : State) (m : Memory) :
    (s.withMem m).status = s.status := rfl
@[simp] theorem State.withMem_faddr (s : State) (m : Memory) :
    (s.withMem m).faddr = s.faddr := rfl
@[simp] theorem State.withMem_undef (s : State) (m : Memory) :
    (s.withMem m).undef = s.undef := rfl
@[simp] theorem State.withMem_faultLog (s : State) (m : Memory) :
    (s.withMem m).faultLog = s.faultLog := rfl
@[simp] theorem State.withMem_mem (s : State) (m : Memory) :
    (s.withMem m).mem = m := rfl
@[simp] theorem State.withMem_platform (s : State) (m : Memory) :
    (s.withMem m).platform = s.platform := rfl
@[simp] theorem State.withMem_trace (s : State) (m : Memory) :
    (s.withMem m).trace = s.trace := rfl
@[simp] theorem State.withMem_pending (s : State) (m : Memory) :
    (s.withMem m).pending = s.pending := rfl
@[simp] theorem State.withMem_replies (s : State) (m : Memory) :
    (s.withMem m).replies = s.replies := rfl
@[simp] theorem State.withMem_draws (s : State) (m : Memory) :
    (s.withMem m).draws = s.draws := rfl

/-! ### invalidateArgs -/

@[simp] theorem State.invalidateArgs_arg0 (s : State) :
    s.invalidateArgs.arg0 = s.arg0.invalidated := rfl
@[simp] theorem State.invalidateArgs_arg1 (s : State) :
    s.invalidateArgs.arg1 = s.arg1.invalidated := rfl
@[simp] theorem State.invalidateArgs_arg2 (s : State) :
    s.invalidateArgs.arg2 = s.arg2.invalidated := rfl
@[simp] theorem State.invalidateArgs_result (s : State) :
    s.invalidateArgs.result = s.result := rfl
@[simp] theorem State.invalidateArgs_status (s : State) :
    s.invalidateArgs.status = s.status := rfl
@[simp] theorem State.invalidateArgs_faddr (s : State) :
    s.invalidateArgs.faddr = s.faddr := rfl
@[simp] theorem State.invalidateArgs_undef (s : State) :
    s.invalidateArgs.undef = s.undef := rfl
@[simp] theorem State.invalidateArgs_faultLog (s : State) :
    s.invalidateArgs.faultLog = s.faultLog := rfl
@[simp] theorem State.invalidateArgs_mem (s : State) :
    s.invalidateArgs.mem = s.mem := rfl
@[simp] theorem State.invalidateArgs_platform (s : State) :
    s.invalidateArgs.platform = s.platform := rfl
@[simp] theorem State.invalidateArgs_trace (s : State) :
    s.invalidateArgs.trace = s.trace := rfl
@[simp] theorem State.invalidateArgs_pending (s : State) :
    s.invalidateArgs.pending = s.pending := rfl
@[simp] theorem State.invalidateArgs_replies (s : State) :
    s.invalidateArgs.replies = s.replies := rfl
@[simp] theorem State.invalidateArgs_draws (s : State) :
    s.invalidateArgs.draws = s.draws := rfl

/-! ### complete -/

@[simp] theorem State.complete_arg0 (s : State) :
    s.complete.arg0 = s.arg0.invalidated := rfl
@[simp] theorem State.complete_arg1 (s : State) :
    s.complete.arg1 = s.arg1.invalidated := rfl
@[simp] theorem State.complete_arg2 (s : State) :
    s.complete.arg2 = s.arg2.invalidated := rfl
@[simp] theorem State.complete_result (s : State) :
    s.complete.result = s.result.invalidated := rfl
@[simp] theorem State.complete_status (s : State) :
    s.complete.status = s.status := rfl
@[simp] theorem State.complete_faddr (s : State) :
    s.complete.faddr = s.faddr := rfl
@[simp] theorem State.complete_undef (s : State) :
    s.complete.undef = s.undef := rfl
@[simp] theorem State.complete_faultLog (s : State) :
    s.complete.faultLog = s.faultLog := rfl
@[simp] theorem State.complete_mem (s : State) :
    s.complete.mem = s.mem := rfl
@[simp] theorem State.complete_platform (s : State) :
    s.complete.platform = s.platform := rfl
@[simp] theorem State.complete_trace (s : State) :
    s.complete.trace = s.trace := rfl
@[simp] theorem State.complete_pending (s : State) :
    s.complete.pending = s.pending := rfl
@[simp] theorem State.complete_replies (s : State) :
    s.complete.replies = s.replies := rfl
@[simp] theorem State.complete_draws (s : State) :
    s.complete.draws = s.draws := rfl

/-! ### completeWith -/

@[simp] theorem State.completeWith_arg0 (s : State) (v : Word) :
    (s.completeWith v).arg0 = s.arg0.invalidated := rfl
@[simp] theorem State.completeWith_arg1 (s : State) (v : Word) :
    (s.completeWith v).arg1 = s.arg1.invalidated := rfl
@[simp] theorem State.completeWith_arg2 (s : State) (v : Word) :
    (s.completeWith v).arg2 = s.arg2.invalidated := rfl
@[simp] theorem State.completeWith_result (s : State) (v : Word) :
    (s.completeWith v).result = Reg.written v := rfl
@[simp] theorem State.completeWith_status (s : State) (v : Word) :
    (s.completeWith v).status = s.status := rfl
@[simp] theorem State.completeWith_faddr (s : State) (v : Word) :
    (s.completeWith v).faddr = s.faddr := rfl
@[simp] theorem State.completeWith_undef (s : State) (v : Word) :
    (s.completeWith v).undef = s.undef := rfl
@[simp] theorem State.completeWith_faultLog (s : State) (v : Word) :
    (s.completeWith v).faultLog = s.faultLog := rfl
@[simp] theorem State.completeWith_mem (s : State) (v : Word) :
    (s.completeWith v).mem = s.mem := rfl
@[simp] theorem State.completeWith_platform (s : State) (v : Word) :
    (s.completeWith v).platform = s.platform := rfl
@[simp] theorem State.completeWith_trace (s : State) (v : Word) :
    (s.completeWith v).trace = s.trace := rfl
@[simp] theorem State.completeWith_pending (s : State) (v : Word) :
    (s.completeWith v).pending = s.pending := rfl
@[simp] theorem State.completeWith_replies (s : State) (v : Word) :
    (s.completeWith v).replies = s.replies := rfl
@[simp] theorem State.completeWith_draws (s : State) (v : Word) :
    (s.completeWith v).draws = s.draws := rfl

/-! ### raise -/

@[simp] theorem State.raise_arg0 (s : State) (c : Cause) (info : Word) :
    (s.raise c info).arg0 = s.arg0.invalidated := rfl
@[simp] theorem State.raise_arg1 (s : State) (c : Cause) (info : Word) :
    (s.raise c info).arg1 = s.arg1.invalidated := rfl
@[simp] theorem State.raise_arg2 (s : State) (c : Cause) (info : Word) :
    (s.raise c info).arg2 = s.arg2.invalidated := rfl
@[simp] theorem State.raise_result (s : State) (c : Cause) (info : Word) :
    (s.raise c info).result = s.result.invalidated := rfl
@[simp] theorem State.raise_status (s : State) (c : Cause) (info : Word) :
    (s.raise c info).status = statusOf c := rfl
@[simp] theorem State.raise_faddr (s : State) (c : Cause) (info : Word) :
    (s.raise c info).faddr = info := rfl
@[simp] theorem State.raise_undef (s : State) (c : Cause) (info : Word) :
    (s.raise c info).undef = s.undef := rfl
@[simp] theorem State.raise_faultLog (s : State) (c : Cause) (info : Word) :
    (s.raise c info).faultLog = s.faultLog ++ [(c, info)] := rfl
@[simp] theorem State.raise_mem (s : State) (c : Cause) (info : Word) :
    (s.raise c info).mem = s.mem := rfl
@[simp] theorem State.raise_platform (s : State) (c : Cause) (info : Word) :
    (s.raise c info).platform = s.platform := rfl
@[simp] theorem State.raise_trace (s : State) (c : Cause) (info : Word) :
    (s.raise c info).trace = s.trace := rfl
@[simp] theorem State.raise_pending (s : State) (c : Cause) (info : Word) :
    (s.raise c info).pending = s.pending := rfl
@[simp] theorem State.raise_replies (s : State) (c : Cause) (info : Word) :
    (s.raise c info).replies = s.replies := rfl
@[simp] theorem State.raise_draws (s : State) (c : Cause) (info : Word) :
    (s.raise c info).draws = s.draws := rfl

/-! ### unspecify -/

@[simp] theorem State.unspecify_arg0 (s : State) (base : Word) (count : Nat) :
    (s.unspecify base count).arg0 = s.arg0 := rfl
@[simp] theorem State.unspecify_arg1 (s : State) (base : Word) (count : Nat) :
    (s.unspecify base count).arg1 = s.arg1 := rfl
@[simp] theorem State.unspecify_arg2 (s : State) (base : Word) (count : Nat) :
    (s.unspecify base count).arg2 = s.arg2 := rfl
@[simp] theorem State.unspecify_result (s : State) (base : Word) (count : Nat) :
    (s.unspecify base count).result = s.result := rfl
@[simp] theorem State.unspecify_status (s : State) (base : Word) (count : Nat) :
    (s.unspecify base count).status = s.status := rfl
@[simp] theorem State.unspecify_faddr (s : State) (base : Word) (count : Nat) :
    (s.unspecify base count).faddr = s.faddr := rfl
@[simp] theorem State.unspecify_undef (s : State) (base : Word) (count : Nat) :
    (s.unspecify base count).undef = s.undef := rfl
@[simp] theorem State.unspecify_faultLog (s : State) (base : Word) (count : Nat) :
    (s.unspecify base count).faultLog = s.faultLog := rfl
@[simp] theorem State.unspecify_mem (s : State) (base : Word) (count : Nat) :
    (s.unspecify base count).mem = drawWords s.platform s.draws base count s.mem := rfl
@[simp] theorem State.unspecify_platform (s : State) (base : Word) (count : Nat) :
    (s.unspecify base count).platform = s.platform := rfl
@[simp] theorem State.unspecify_trace (s : State) (base : Word) (count : Nat) :
    (s.unspecify base count).trace = s.trace := rfl
@[simp] theorem State.unspecify_pending (s : State) (base : Word) (count : Nat) :
    (s.unspecify base count).pending = s.pending := rfl
@[simp] theorem State.unspecify_replies (s : State) (base : Word) (count : Nat) :
    (s.unspecify base count).replies = s.replies := rfl
@[simp] theorem State.unspecify_draws (s : State) (base : Word) (count : Nat) :
    (s.unspecify base count).draws = s.draws + 1 := rfl

/-! ### note -/

@[simp] theorem State.note_arg0 (s : State) (r : Reason) :
    (s.note r).arg0 = s.arg0 := rfl
@[simp] theorem State.note_arg1 (s : State) (r : Reason) :
    (s.note r).arg1 = s.arg1 := rfl
@[simp] theorem State.note_arg2 (s : State) (r : Reason) :
    (s.note r).arg2 = s.arg2 := rfl
@[simp] theorem State.note_result (s : State) (r : Reason) :
    (s.note r).result = s.result := rfl
@[simp] theorem State.note_status (s : State) (r : Reason) :
    (s.note r).status = s.status := rfl
@[simp] theorem State.note_faddr (s : State) (r : Reason) :
    (s.note r).faddr = s.faddr := rfl
@[simp] theorem State.note_undef (s : State) (r : Reason) :
    (s.note r).undef = s.undef.insert r := rfl
@[simp] theorem State.note_faultLog (s : State) (r : Reason) :
    (s.note r).faultLog = s.faultLog := rfl
@[simp] theorem State.note_mem (s : State) (r : Reason) :
    (s.note r).mem = s.mem := rfl
@[simp] theorem State.note_platform (s : State) (r : Reason) :
    (s.note r).platform = s.platform := rfl
@[simp] theorem State.note_trace (s : State) (r : Reason) :
    (s.note r).trace = s.trace := rfl
@[simp] theorem State.note_pending (s : State) (r : Reason) :
    (s.note r).pending = s.pending := rfl
@[simp] theorem State.note_replies (s : State) (r : Reason) :
    (s.note r).replies = s.replies := rfl
@[simp] theorem State.note_draws (s : State) (r : Reason) :
    (s.note r).draws = s.draws := rfl

/-! ### undefine -/

@[simp] theorem State.undefine_arg0 (s : State) (r : Reason) :
    (s.undefine r).arg0 = ⟨Config.freeWord s.draws 0, Config.freeFlag s.draws 0⟩ := rfl
@[simp] theorem State.undefine_arg1 (s : State) (r : Reason) :
    (s.undefine r).arg1 = ⟨Config.freeWord s.draws 1, Config.freeFlag s.draws 1⟩ := rfl
@[simp] theorem State.undefine_arg2 (s : State) (r : Reason) :
    (s.undefine r).arg2 = ⟨Config.freeWord s.draws 2, Config.freeFlag s.draws 2⟩ := rfl
@[simp] theorem State.undefine_result (s : State) (r : Reason) :
    (s.undefine r).result = ⟨Config.freeWord s.draws 3, Config.freeFlag s.draws 3⟩ := rfl
@[simp] theorem State.undefine_status (s : State) (r : Reason) :
    (s.undefine r).status = statusOfDraw (Config.freeWord s.draws 4) := rfl
@[simp] theorem State.undefine_faddr (s : State) (r : Reason) :
    (s.undefine r).faddr = Config.freeWord s.draws 5 := rfl
@[simp] theorem State.undefine_undef (s : State) (r : Reason) :
    (s.undefine r).undef = s.undef.insert r := rfl
@[simp] theorem State.undefine_faultLog (s : State) (r : Reason) :
    (s.undefine r).faultLog = s.faultLog := rfl
@[simp] theorem State.undefine_mem (s : State) (r : Reason) :
    (s.undefine r).mem = ⟨[], .drawn s.draws⟩ := rfl
@[simp] theorem State.undefine_platform (s : State) (r : Reason) :
    (s.undefine r).platform = s.platform := rfl
@[simp] theorem State.undefine_trace (s : State) (r : Reason) :
    (s.undefine r).trace = s.trace := rfl
@[simp] theorem State.undefine_pending (s : State) (r : Reason) :
    (s.undefine r).pending = s.pending := rfl
@[simp] theorem State.undefine_replies (s : State) (r : Reason) :
    (s.undefine r).replies = s.replies := rfl
@[simp] theorem State.undefine_draws (s : State) (r : Reason) :
    (s.undefine r).draws = s.draws + 1 := rfl

/-! ### resetInput -/

@[simp] theorem State.resetInput_arg0 (s : State) :
    s.resetInput.arg0 = s.arg0.invalidated := rfl
@[simp] theorem State.resetInput_arg1 (s : State) :
    s.resetInput.arg1 = s.arg1.invalidated := rfl
@[simp] theorem State.resetInput_arg2 (s : State) :
    s.resetInput.arg2 = s.arg2.invalidated := rfl
@[simp] theorem State.resetInput_result (s : State) :
    s.resetInput.result = s.result.invalidated := rfl
@[simp] theorem State.resetInput_status (s : State) :
    s.resetInput.status = 0#32 := rfl
@[simp] theorem State.resetInput_faddr (s : State) :
    s.resetInput.faddr = 0#32 := rfl
@[simp] theorem State.resetInput_undef (s : State) :
    s.resetInput.undef = s.undef := rfl
@[simp] theorem State.resetInput_faultLog (s : State) :
    s.resetInput.faultLog = s.faultLog := rfl
@[simp] theorem State.resetInput_mem (s : State) :
    s.resetInput.mem = s.mem := rfl
@[simp] theorem State.resetInput_platform (s : State) :
    s.resetInput.platform = s.platform := rfl
@[simp] theorem State.resetInput_trace (s : State) :
    s.resetInput.trace = s.trace := rfl
@[simp] theorem State.resetInput_pending (s : State) :
    s.resetInput.pending = s.pending := rfl
@[simp] theorem State.resetInput_replies (s : State) :
    s.resetInput.replies = s.replies := rfl
@[simp] theorem State.resetInput_draws (s : State) :
    s.resetInput.draws = s.draws := rfl

/-! ### reply -/

@[simp] theorem State.reply_arg0 (s : State) (v : Option Word) :
    (s.reply v).arg0 = s.arg0 := rfl
@[simp] theorem State.reply_arg1 (s : State) (v : Option Word) :
    (s.reply v).arg1 = s.arg1 := rfl
@[simp] theorem State.reply_arg2 (s : State) (v : Option Word) :
    (s.reply v).arg2 = s.arg2 := rfl
@[simp] theorem State.reply_result (s : State) (v : Option Word) :
    (s.reply v).result = s.result := rfl
@[simp] theorem State.reply_status (s : State) (v : Option Word) :
    (s.reply v).status = s.status := rfl
@[simp] theorem State.reply_faddr (s : State) (v : Option Word) :
    (s.reply v).faddr = s.faddr := rfl
@[simp] theorem State.reply_undef (s : State) (v : Option Word) :
    (s.reply v).undef = s.undef := rfl
@[simp] theorem State.reply_faultLog (s : State) (v : Option Word) :
    (s.reply v).faultLog = s.faultLog := rfl
@[simp] theorem State.reply_mem (s : State) (v : Option Word) :
    (s.reply v).mem = s.mem := rfl
@[simp] theorem State.reply_platform (s : State) (v : Option Word) :
    (s.reply v).platform = s.platform := rfl
@[simp] theorem State.reply_trace (s : State) (v : Option Word) :
    (s.reply v).trace = s.trace := rfl
@[simp] theorem State.reply_pending (s : State) (v : Option Word) :
    (s.reply v).pending = s.pending := rfl
@[simp] theorem State.reply_replies (s : State) (v : Option Word) :
    (s.reply v).replies = s.replies ++ [v] := rfl
@[simp] theorem State.reply_draws (s : State) (v : Option Word) :
    (s.reply v).draws = s.draws := rfl

/-! ### The flag of a register -/

@[simp] theorem Reg.get?_written (v : Word) : (Reg.written v).get? = some v := rfl
@[simp] theorem Reg.get?_invalidated (r : Reg) : r.invalidated.get? = none := rfl
@[simp] theorem Reg.valid_invalidated (r : Reg) : r.invalidated.valid = false := rfl

theorem Reg.get?_eq_some {r : Reg} {v : Word} : r.get? = some v ↔ r = Reg.written v := by
  obtain ⟨value, valid⟩ := r
  cases valid <;> simp [Reg.get?, Reg.written]

theorem Reg.get?_eq_none {r : Reg} : r.get? = none ↔ r.valid = false := by
  obtain ⟨value, valid⟩ := r
  cases valid <;> simp [Reg.get?]

/-! ### UNDEF -/

@[simp] theorem UndefSet.has_insert (u : UndefSet) (r q : Reason) : (u.insert r).has q = (decide (q = r) || u.has q) := by
  cases r <;> cases q <;> simp [UndefSet.insert, UndefSet.has]

theorem UndefSet.isEmpty_iff (u : UndefSet) : u.isEmpty = true ↔ ∀ r, u.has r = false := by
  obtain ⟨a, b, c, d⟩ := u
  constructor
  · intro h r
    cases r <;> simp_all [UndefSet.isEmpty, UndefSet.has]
  · intro h
    have h0 := h .undefinedOperand
    have h1 := h .precondition
    have h2 := h .hostUndefinedRead
    have h3 := h .hostUndefinedWrite
    simp_all [UndefSet.isEmpty, UndefSet.has]

end Sys2Proof.Machine
end

