-- ==== Sys2Proof/Laws/Ops.lean ====
section
/-! SUPPORT. What each shared operation can do, said once: the word accesses, the parts of the three operations, and the
ways a command ends. Later proofs cite these lemmas and do not unfold the operations. -/

namespace Sys2Proof.Machine

/-! ## Traces and memory -/

@[simp] theorem State.recordAll_nil (s : State) : s.recordAll [] = s := by simp [State.recordAll]

theorem State.record_eq (s : State) (x : Access) : s.record x = s.recordAll [x] := rfl

@[simp] theorem State.recordAll_recordAll (s : State) (xs ys : List Access) :
    (s.recordAll xs).recordAll ys = s.recordAll (xs ++ ys) := by
  simp [State.recordAll, List.append_assoc]

@[simp] theorem State.withMem_self (s : State) : s.withMem s.mem = s := rfl

@[simp] theorem State.withMem_withMem (s : State) (m n : Memory) : (s.withMem m).withMem n = s.withMem n := rfl

theorem State.recordAll_withMem (s : State) (m : Memory) (xs : List Access) :
    (s.withMem m).recordAll xs = (s.recordAll xs).withMem m := rfl

/-! ## One word access -/

theorem memRead_mapped {a : Word} {s : State} (h : s.platform.mapped a = true) :
    memRead a s = .done (s.mem.readWord a) (s.recordAll [.read a]) := by
  simp [memRead, h, State.record_eq]

theorem memRead_unmapped {a : Word} {s : State} (h : s.platform.mapped a = false) : memRead a s = .bus a s := by
  simp [memRead, h]

theorem memWrite_mapped {a v : Word} {s : State} (h : s.platform.mapped a = true) :
    memWrite a v s = .done () ((s.recordAll [.write a]).withMem (s.mem.writeWord a v)) := by
  simp [memWrite, h, State.record_eq, State.recordAll_withMem]

theorem memWrite_unmapped {a v : Word} {s : State} (h : s.platform.mapped a = false) : memWrite a v s = .bus a s := by
  simp [memWrite, h]

/-! ## Where a part of an operation ends -/

/-- The state at the point where a part of an operation ends. -/
def Ran.state {α : Type} : Ran α → State
  | .done _ s => s
  | .bus _ s => s

/-- The address of the first access whose word is not Mapped, if there was one. -/
def Ran.bus? {α : Type} : Ran α → Option Word
  | .done _ _ => none
  | .bus a _ => some a

/-- A part of an operation ran from `s` to `t`: it only added Mapped accesses to the trace and wrote memory, keeping the
canonical form. -/
def Ran.Steps (s t : State) : Prop :=
  ∃ xs m, t = (s.recordAll xs).withMem m ∧ (∀ x ∈ xs, s.platform.mapped x.address = true) ∧ (s.mem.wf → m.wf)

theorem Ran.Steps.refl (s : State) : Ran.Steps s s := ⟨[], s.mem, by simp, by simp, id⟩

theorem Ran.Steps.trans {s t u : State} (h : Ran.Steps s t) (h' : Ran.Steps t u) : Ran.Steps s u := by
  obtain ⟨xs, m, rfl, hx, hm⟩ := h
  obtain ⟨ys, n, rfl, hy, hn⟩ := h'
  refine ⟨xs ++ ys, n, by simp [State.recordAll_withMem], fun x hx' => ?_, fun hw => hn (hm hw)⟩
  rcases List.mem_append.1 hx' with h | h
  · exact hx x h
  · exact hy x h

theorem Ran.bind_steps {α β : Type} {s : State} {x : Ran α} {f : α → State → Ran β}
    (hx : Ran.Steps s x.state) (hf : ∀ v t, Ran.Steps t (f v t).state) : Ran.Steps s (x.bind f).state := by
  cases x with
  | done v t => exact hx.trans (hf v t)
  | bus a t => exact hx

theorem memRead_steps (a : Word) (s : State) : Ran.Steps s (memRead a s).state := by
  cases h : s.platform.mapped a
  · rw [memRead_unmapped h]
    exact .refl s
  · rw [memRead_mapped h]
    exact ⟨[.read a], s.mem, rfl, by simpa [Access.address] using h, id⟩

theorem memWrite_steps (a v : Word) (s : State) : Ran.Steps s (memWrite a v s).state := by
  cases h : s.platform.mapped a
  · rw [memWrite_unmapped h]
    exact .refl s
  · rw [memWrite_mapped h]
    exact ⟨[.write a], _, rfl, by simpa [Access.address] using h, fun hw => Memory.wf_writeWord hw _ _⟩

theorem feistel_steps (sb w : Word) (s : State) : Ran.Steps s (feistel sb w s).state :=
  Ran.bind_steps (memRead_steps _ _) fun _ _ => Ran.bind_steps (memRead_steps _ _) fun _ _ =>
    Ran.bind_steps (memRead_steps _ _) fun _ _ => Ran.bind_steps (memRead_steps _ _) fun _ t => .refl t

theorem decryptRound_steps (sb : Word) (i : Nat) (left right : Word) (s : State) :
    Ran.Steps s (decryptRound sb i left right s).state :=
  Ran.bind_steps (memRead_steps _ _) fun _ _ => Ran.bind_steps (feistel_steps _ _ _) fun _ t => .refl t

theorem decryptRounds_steps (sb : Word) (n : Nat) (left right : Word) (s : State) :
    Ran.Steps s (decryptRounds sb n left right s).state := by
  induction n generalizing left right s with
  | zero => exact decryptRound_steps sb 2 left right s
  | succ n ih => exact Ran.bind_steps (decryptRound_steps _ _ _ _ _) fun f t => ih f.left f.right t

theorem decryptBlock_steps (sb ba : Word) (s : State) : Ran.Steps s (decryptBlock sb ba s).state :=
  Ran.bind_steps (memRead_steps _ _) fun _ _ => Ran.bind_steps (memRead_steps _ _) fun _ _ =>
    Ran.bind_steps (decryptRounds_steps _ _ _ _ _) fun _ _ => Ran.bind_steps (memRead_steps _ _) fun _ _ =>
      Ran.bind_steps (memRead_steps _ _) fun _ _ => Ran.bind_steps (memWrite_steps _ _ _) fun _ _ =>
        memWrite_steps _ _ _

theorem moveWords_steps (mode : MoveMode) (src dst : Word) (n k : Nat) (s : State) :
    Ran.Steps s (moveWords mode src dst n k s).state := by
  induction n generalizing k s with
  | zero => exact .refl s
  | succ n ih =>
    exact Ran.bind_steps (memRead_steps _ _) fun _ _ =>
      Ran.bind_steps (memWrite_steps _ _ _) fun _ t => ih (k + 1) t

/-! ## The round function -/

/-- The four reads of F in their order (R106). -/
def feistelReads (sb w : Word) : List Access :=
  [.read (addressA sb w), .read (addressB sb w), .read (addressC sb w), .read (addressD sb w)]

/-- The value of F over a memory (R105). -/
def feistelValue (m : Memory) (sb w : Word) : Word :=
  roundMix (m.readWord (addressA sb w)) (m.readWord (addressB sb w)) (m.readWord (addressC sb w))
    (m.readWord (addressD sb w))

theorem feistel_mapped {sb w : Word} {s : State} (hA : s.platform.mapped (addressA sb w) = true)
    (hB : s.platform.mapped (addressB sb w) = true) (hC : s.platform.mapped (addressC sb w) = true)
    (hD : s.platform.mapped (addressD sb w) = true) :
    feistel sb w s = .done (feistelValue s.mem sb w) (s.recordAll (feistelReads sb w)) := by
  simp [feistel, memRead_mapped, hA, hB, hC, hD, Ran.bind, feistelValue, feistelReads]

/-! ## Parts of an operation that follow a list of accesses -/

/-- A part of an operation, started at `s`, makes the accesses `xs` in order: if all are Mapped it ends with the value
`v` and memory `m`, and at the first that is not it ends there, the ones before it made (R205). -/
def Ran.Follows {α : Type} (r : Ran α) (s : State) (xs : List Access) (v : α) (m : Memory) : Prop :=
  ((∀ x ∈ xs, s.platform.mapped x.address = true) → r = .done v ((s.recordAll xs).withMem m)) ∧
  ∀ made x later, xs = made ++ x :: later → (∀ y ∈ made, s.platform.mapped y.address = true) →
    s.platform.mapped x.address = false → ∃ n, r = .bus x.address ((s.recordAll made).withMem n)

theorem Ran.Follows.done {α : Type} (v : α) (s : State) : Ran.Follows (.done v s) s [] v s.mem :=
  ⟨fun _ => by simp, fun made x later h => by simp at h⟩

theorem Ran.Follows.bind {α β : Type} {r : Ran α} {f : α → State → Ran β} {s : State} {xs ys : List Access} {v : α}
    {w : β} {m n : Memory} (hr : r.Follows s xs v m)
    (hf : (f v ((s.recordAll xs).withMem m)).Follows ((s.recordAll xs).withMem m) ys w n) :
    (r.bind f).Follows s (xs ++ ys) w n := by
  refine ⟨fun h => ?_, fun made x later he hm hx => ?_⟩
  · rw [hr.1 (fun x hx => h x (List.mem_append_left _ hx)), Ran.bind,
      hf.1 (fun x hx => h x (List.mem_append_right _ hx))]
    simp [State.recordAll_withMem]
  · rcases List.append_eq_append_iff.1 he with ⟨made', rfl, hy⟩ | ⟨later', hxs, hy⟩
    · rw [hr.1 (fun y hy => hm y (List.mem_append_left _ hy)), Ran.bind]
      obtain ⟨k, hk⟩ := hf.2 made' x later hy (fun y hy => hm y (List.mem_append_right _ hy)) hx
      exact ⟨k, by rw [hk]; simp [State.recordAll_withMem]⟩
    · rcases later' with _ | ⟨z, later'⟩
      · simp only [List.append_nil] at hxs
        simp only [List.nil_append] at hy
        subst hxs
        rw [hr.1 hm, Ran.bind]
        obtain ⟨k, hk⟩ := hf.2 [] x later hy.symm (by simp) hx
        exact ⟨k, by rw [hk]; simp⟩
      · simp only [List.cons_append, List.cons.injEq] at hy
        obtain ⟨rfl, -⟩ := hy
        obtain ⟨k, hk⟩ := hr.2 made x later' hxs hm hx
        exact ⟨k, by rw [hk, Ran.bind]⟩

theorem Ran.Follows.nil {α : Type} {v : α} {s : State} {m : Memory} (h : s.mem = m) :
    Ran.Follows (.done v s) s [] v m := h ▸ .done v s

/-- A read, then the rest. -/
theorem memRead_bind_follows {β : Type} {a : Word} {s : State} {f : Word → State → Ran β} {ys : List Access} {w : β}
    {n : Memory} (h : (f (s.mem.readWord a) (s.recordAll [.read a])).Follows (s.recordAll [.read a]) ys w n) :
    ((memRead a s).bind f).Follows s (.read a :: ys) w n := by
  refine Ran.Follows.bind (xs := [.read a]) (v := s.mem.readWord a) (m := s.mem) ⟨fun hm => ?_, ?_⟩ h
  · exact memRead_mapped (by simpa [Access.address] using hm)
  · intro made x later he _ hx
    obtain ⟨rfl, rfl⟩ : made = [] ∧ x = .read a := by cases made <;> simp_all
    exact ⟨s.mem, by rw [State.recordAll_nil, State.withMem_self]; exact memRead_unmapped hx⟩

/-- A write is all of it. -/
theorem memWrite_follows (a v : Word) (s : State) :
    (memWrite a v s).Follows s [.write a] () (s.mem.writeWord a v) := by
  refine ⟨fun h => memWrite_mapped (by simpa [Access.address] using h), fun made x later he _ hx => ?_⟩
  obtain ⟨rfl, rfl⟩ : made = [] ∧ x = .write a := by cases made <;> simp_all
  exact ⟨s.mem, by rw [State.recordAll_nil, State.withMem_self]; exact memWrite_unmapped hx⟩

/-- A write, then the rest. -/
theorem memWrite_bind_follows {β : Type} {a v : Word} {s : State} {f : Unit → State → Ran β} {ys : List Access}
    {w : β} {n : Memory}
    (h : (f () ((s.recordAll [.write a]).withMem (s.mem.writeWord a v))).Follows
      ((s.recordAll [.write a]).withMem (s.mem.writeWord a v)) ys w n) :
    ((memWrite a v s).bind f).Follows s (.write a :: ys) w n :=
  Ran.Follows.bind (xs := [.write a]) (memWrite_follows a v s) h

theorem feistel_follows (sb w : Word) (s : State) :
    (feistel sb w s).Follows s (feistelReads sb w) (feistelValue s.mem sb w) s.mem := by
  unfold feistel feistelReads feistelValue
  refine memRead_bind_follows (memRead_bind_follows (memRead_bind_follows (memRead_bind_follows ?_)))
  simp only [State.recordAll_mem]
  exact .nil (by simp)

/-- One round over a memory (R131). -/
def flightValue (m : Memory) (sb : Word) (i : Nat) (left right : Word) : Flight :=
  let temp := xor32 (m.readWord (wordAddress sb i)) left
  ⟨xor32 (feistelValue m sb temp) right, temp, temp⟩

/-- The five reads of a round (R133). -/
def flightReads (m : Memory) (sb : Word) (i : Nat) (left : Word) : List Access :=
  .read (wordAddress sb i) :: feistelReads sb (xor32 (m.readWord (wordAddress sb i)) left)

/-- The rounds from index `n + 2` down to 2 over a memory (R131). -/
def flightsValue (m : Memory) (sb : Word) : Nat → Word → Word → Flight
  | 0, left, right => flightValue m sb 2 left right
  | n + 1, left, right =>
    flightsValue m sb n (flightValue m sb (n + 3) left right).left (flightValue m sb (n + 3) left right).right

/-- The reads of the rounds from index `n + 2` down to 2 (R133). -/
def flightsReads (m : Memory) (sb : Word) : Nat → Word → Word → List Access
  | 0, left, _ => flightReads m sb 2 left
  | n + 1, left, right => flightReads m sb (n + 3) left ++
    flightsReads m sb n (flightValue m sb (n + 3) left right).left (flightValue m sb (n + 3) left right).right

theorem decryptRound_follows (sb : Word) (i : Nat) (left right : Word) (s : State) :
    (decryptRound sb i left right s).Follows s (flightReads s.mem sb i left) (flightValue s.mem sb i left right)
      s.mem := by
  unfold decryptRound flightReads flightValue
  refine memRead_bind_follows ?_
  rw [← List.append_nil (feistelReads _ _)]
  refine Ran.Follows.bind (feistel_follows sb _ _) ?_
  simp only [State.recordAll_mem]
  exact .nil (by simp)

theorem decryptRounds_follows (sb : Word) (n : Nat) (left right : Word) (s : State) :
    (decryptRounds sb n left right s).Follows s (flightsReads s.mem sb n left right)
      (flightsValue s.mem sb n left right) s.mem := by
  induction n generalizing left right s with
  | zero => exact decryptRound_follows sb 2 left right s
  | succ n ih =>
    unfold decryptRounds flightsReads flightsValue
    refine Ran.Follows.bind (decryptRound_follows sb (n + 3) left right s) ?_
    have h := ih (flightValue s.mem sb (n + 3) left right).left (flightValue s.mem sb (n + 3) left right).right
      ((s.recordAll (flightReads s.mem sb (n + 3) left)).withMem s.mem)
    rw [State.withMem_mem] at h
    exact h

/-- The words DEC64 stores, over a memory (R132). -/
def decryptedWords (m : Memory) (sb ba : Word) : Word × Word :=
  let flight := flightsValue m sb 15 (m.readWord ba) (m.readWord (add32 ba 4#32))
  (xor32 (m.readWord (wordAddress sb 0)) flight.temp, xor32 (m.readWord (wordAddress sb 1)) flight.left)

/-- The accesses of DEC64 (R133). -/
def decryptBlockAccesses (m : Memory) (sb ba : Word) : List Access :=
  .read ba :: .read (add32 ba 4#32) ::
    (flightsReads m sb 15 (m.readWord ba) (m.readWord (add32 ba 4#32)) ++
      [.read (wordAddress sb 1), .read (wordAddress sb 0), .write ba, .write (add32 ba 4#32)])

theorem decryptBlock_follows (sb ba : Word) (s : State) :
    (decryptBlock sb ba s).Follows s (decryptBlockAccesses s.mem sb ba) ()
      ((s.mem.writeWord ba (decryptedWords s.mem sb ba).1).writeWord (add32 ba 4#32)
        (decryptedWords s.mem sb ba).2) := by
  unfold decryptBlock decryptBlockAccesses decryptedWords
  refine memRead_bind_follows (memRead_bind_follows ?_)
  have h := decryptRounds_follows sb 15 (s.mem.readWord ba) (s.mem.readWord (add32 ba 4#32))
    ((s.recordAll [.read ba]).recordAll [.read (add32 ba 4#32)])
  simp only [State.recordAll_mem] at h ⊢
  refine Ran.Follows.bind h (memRead_bind_follows (memRead_bind_follows (memWrite_bind_follows ?_)))
  simp only [State.recordAll_mem, State.withMem_mem]
  exact memWrite_follows (add32 ba 4#32) _ _

/-- Memory after `n` words from word k on are moved (R161, R162). -/
def movedMemory (mode : MoveMode) (src dst : Word) : Nat → Nat → Memory → Memory
  | 0, _, m => m
  | n + 1, k, m => movedMemory mode src dst n (k + 1)
    (m.writeWord (wordAddress dst k) (m.readWord (sourceAddress mode src k)))

/-- The accesses of moving `n` words from word k on (R165, R166). -/
def moveWordsAccesses (mode : MoveMode) (src dst : Word) : Nat → Nat → List Access
  | 0, _ => []
  | n + 1, k => .read (sourceAddress mode src k) :: .write (wordAddress dst k) ::
    moveWordsAccesses mode src dst n (k + 1)

theorem moveWords_follows (mode : MoveMode) (src dst : Word) (n k : Nat) (s : State) :
    (moveWords mode src dst n k s).Follows s (moveWordsAccesses mode src dst n k) ()
      (movedMemory mode src dst n k s.mem) := by
  induction n generalizing k s with
  | zero => exact .done () s
  | succ n ih =>
    unfold moveWords moveWordsAccesses movedMemory
    refine memRead_bind_follows (memWrite_bind_follows ?_)
    exact ih (k + 1) _

/-- However it ends, such a part has made a first stretch of its accesses, all of them Mapped. -/
theorem Ran.Follows.made {α : Type} {r : Ran α} {s : State} {xs : List Access} {v : α} {m : Memory}
    (h : r.Follows s xs v m) : ∃ made later n, xs = made ++ later ∧ r.state = (s.recordAll made).withMem n ∧
      ∀ x ∈ made, s.platform.mapped x.address = true := by
  by_cases hall : ∀ x ∈ xs, s.platform.mapped x.address = true
  · exact ⟨xs, [], m, by simp, by rw [h.1 hall]; rfl, hall⟩
  · have key : ∀ ys : List Access, ¬(∀ x ∈ ys, s.platform.mapped x.address = true) →
        ∃ made x later, ys = made ++ x :: later ∧ (∀ y ∈ made, s.platform.mapped y.address = true) ∧
          s.platform.mapped x.address = false := by
      intro ys hys
      induction ys with
      | nil => simp at hys
      | cons y ys ih =>
        cases hy : s.platform.mapped y.address
        · exact ⟨[], y, ys, by simp, by simp, hy⟩
        · obtain ⟨made, x, later, rfl, hm, hx⟩ := ih (by simpa [hy] using hys)
          exact ⟨y :: made, x, later, by simp, by simpa [hy] using hm, hx⟩
    obtain ⟨made, x, later, rfl, hm, hx⟩ := key xs hall
    obtain ⟨n, hn⟩ := h.2 made x later rfl hm hx
    exact ⟨made, x :: later, n, rfl, by rw [hn]; rfl, hm⟩

/-! ## The bytes a part of an operation can change -/

/-- A part of an operation, started at `s`, leaves the byte at `x` as it was, wherever it ends. -/
def Ran.Keeps {α : Type} (r : Ran α) (s : State) (x : Word) : Prop := r.state.mem.read x = s.mem.read x

theorem Ran.Keeps.bind {α β : Type} {r : Ran α} {f : α → State → Ran β} {s : State} {x : Word}
    (hr : r.Keeps s x) (hf : ∀ v t, (f v t).Keeps t x) : (r.bind f).Keeps s x := by
  cases r with
  | done v t => exact (hf v t).trans hr
  | bus a t => exact hr

theorem memRead_state_mem (a : Word) (s : State) : (memRead a s).state.mem = s.mem := by
  unfold memRead
  split <;> rfl

theorem memRead_keeps (a : Word) (s : State) (x : Word) : (memRead a s).Keeps s x := by
  rw [Ran.Keeps, memRead_state_mem]

theorem memWrite_keeps {a x : Word} (v : Word) (s : State) (h : x ∉ wordBytes a) : (memWrite a v s).Keeps s x := by
  unfold Ran.Keeps memWrite
  split
  · exact read_writeWord_outside _ _ _ _ h
  · rfl

theorem bind_state_mem {α β : Type} {r : Ran α} {f : α → State → Ran β} {m : Memory} (hr : r.state.mem = m)
    (hf : ∀ v t, (f v t).state.mem = t.mem) : (r.bind f).state.mem = m := by
  cases r with
  | done v t => exact (hf v t).trans hr
  | bus a t => exact hr

theorem feistel_state_mem (sb w : Word) (s : State) : (feistel sb w s).state.mem = s.mem :=
  bind_state_mem (memRead_state_mem _ s) fun _ s => bind_state_mem (memRead_state_mem _ s) fun _ s =>
    bind_state_mem (memRead_state_mem _ s) fun _ s => bind_state_mem (memRead_state_mem _ s) fun _ _ => rfl

theorem feistel_keeps (sb w : Word) (s : State) (x : Word) : (feistel sb w s).Keeps s x := by
  rw [Ran.Keeps, feistel_state_mem]

theorem decryptRound_keeps (sb : Word) (i : Nat) (left right : Word) (s : State) (x : Word) :
    (decryptRound sb i left right s).Keeps s x :=
  (memRead_keeps _ s x).bind fun _ t => (feistel_keeps _ _ t x).bind fun _ _ => rfl

theorem decryptRounds_keeps (sb : Word) (n : Nat) (left right : Word) (s : State) (x : Word) :
    (decryptRounds sb n left right s).Keeps s x := by
  induction n generalizing left right s with
  | zero => exact decryptRound_keeps sb 2 left right s x
  | succ n ih => exact (decryptRound_keeps sb (n + 3) left right s x).bind fun f t => ih f.left f.right t

/-- DEC64 can change only the eight bytes of its block (R132). -/
theorem decryptBlock_keeps {sb ba x : Word} (s : State) (h0 : x ∉ wordBytes ba) (h1 : x ∉ wordBytes (add32 ba 4#32)) :
    (decryptBlock sb ba s).Keeps s x :=
  (memRead_keeps _ s x).bind fun _ t => (memRead_keeps _ t x).bind fun _ t =>
    (decryptRounds_keeps _ _ _ _ t x).bind fun _ t => (memRead_keeps _ t x).bind fun _ t =>
      (memRead_keeps _ t x).bind fun _ t => (memWrite_keeps _ t h0).bind fun _ t => memWrite_keeps _ t h1

/-- MOVE can change only the bytes of its destination words (R161, R162). -/
theorem moveWords_keeps (mode : MoveMode) (src dst : Word) (n k : Nat) (s : State) (x : Word)
    (h : ∀ j, k ≤ j → j < k + n → x ∉ wordBytes (wordAddress dst j)) :
    (moveWords mode src dst n k s).Keeps s x := by
  induction n generalizing k s with
  | zero => rfl
  | succ n ih =>
    exact (memRead_keeps _ s x).bind fun _ t => (memWrite_keeps _ t (h k (by omega) (by omega))).bind fun _ t =>
      ih (k + 1) t fun j hj hj' => h j (by omega) (by omega)

/-! ## The ways a command ends -/

/-- A command ends at a state reached by its accesses: it completed (only ROUND with a result), it raised a fault of its
own (never ILLEGAL_COMMAND), a bus error left its destination words unspecified, or a model fault left the state
undefined. -/
inductive CommandEnd (s : State) : State → Prop
  | completed (u : State) (h : Ran.Steps s u) : CommandEnd s u.complete
  | completedWith (u : State) (v : Word) (h : Ran.Steps s u) : CommandEnd s (u.completeWith v)
  | faulted (u : State) (c : Cause) (info : Word) (h : Ran.Steps s u) (hc : c ≠ .illegalCommand) :
      CommandEnd s (u.raise c info)
  | busFaulted (u : State) (a base : Word) (count : Nat) (h : Ran.Steps s u) :
      CommandEnd s ((u.unspecify base count).raise .busError a)
  | undefined (t : State) (h : EndsUndefined s t) : CommandEnd s t

theorem roundOn_ends (sb w : Word) (s : State) : CommandEnd s (roundOn sb w s) := by
  unfold roundOn
  split_ifs
  · exact .faulted s _ _ (.refl s) (by decide)
  · exact .faulted s _ _ (.refl s) (by decide)
  · have h := feistel_steps sb w s
    split <;> rename_i heq <;> rw [heq] at h
    · exact .completedWith _ _ h
    · exact .faulted _ _ _ h (by decide)

theorem dec64On_ends (sb ba : Word) (s : State) : CommandEnd s (dec64On sb ba s) := by
  unfold dec64On
  split_ifs
  · exact .faulted s _ _ (.refl s) (by decide)
  · exact .faulted s _ _ (.refl s) (by decide)
  · exact .faulted s _ _ (.refl s) (by decide)
  · exact .faulted s _ _ (.refl s) (by decide)
  · exact .undefined _ (.inr rfl)
  · have h := decryptBlock_steps sb ba s
    split <;> rename_i heq <;> rw [heq] at h
    · exact .completed _ h
    · exact .busFaulted _ _ _ _ h

theorem moveOn_ends (mode : MoveMode) (src dst : Word) (count : Nat) (s : State) :
    CommandEnd s (moveOn mode src dst count s) := by
  unfold moveOn
  split_ifs
  · exact .faulted s _ _ (.refl s) (by decide)
  · exact .faulted s _ _ (.refl s) (by decide)
  · exact .completed s (.refl s)
  · exact .faulted s _ _ (.refl s) (by decide)
  · exact .faulted s _ _ (.refl s) (by decide)
  · exact .undefined _ (.inr rfl)
  · have h := moveWords_steps mode src dst count 0 s
    split <;> rename_i heq <;> rw [heq] at h
    · exact .completed _ h
    · exact .busFaulted _ _ _ _ h

theorem execMoveCopy_ends (count : Word) (s : State) :
    ∃ t, execMoveCopy count s = .next t ∧ CommandEnd s t := by
  unfold execMoveCopy
  split
  · exact ⟨_, rfl, moveOn_ends _ _ _ _ _⟩
  · exact ⟨_, rfl, .undefined _ (.inl rfl)⟩

theorem execMoveFill_ends (count : Word) (s : State) :
    ∃ t, execMoveFill count s = .next t ∧ CommandEnd s t := by
  unfold execMoveFill
  split
  · exact ⟨_, rfl, moveOn_ends _ _ _ _ _⟩
  · exact ⟨_, rfl, .undefined _ (.inl rfl)⟩

/-- Every command ends in a next state, in one of the ways of `CommandEnd` (R26, R200, R238). -/
theorem exec_ends (i : Instr) (s : State) : ∃ t, exec i s = .next t ∧ CommandEnd s t := by
  cases i with
  | round =>
    simp only [exec, execRound]
    split
    · exact ⟨_, rfl, roundOn_ends _ _ _⟩
    · exact ⟨_, rfl, .undefined _ (.inl rfl)⟩
  | dec64 =>
    simp only [exec, execDec64]
    split
    · exact ⟨_, rfl, dec64On_ends _ _ _⟩
    · exact ⟨_, rfl, .undefined _ (.inl rfl)⟩
  | move =>
    simp only [exec, execMove]
    split
    · split
      · exact execMoveFill_ends _ _
      · exact execMoveCopy_ends _ _
    · exact ⟨_, rfl, .undefined _ (.inl rfl)⟩
  | moveCopy count => exact execMoveCopy_ends count s
  | moveFill count => exact execMoveFill_ends count s

end Sys2Proof.Machine
end

