-- ==== Sys2Proof/Laws/PerInstr.lean ====
section
/-! SUPPORT. Families of statements about every command as syntax: one lemma per constructor. -/

namespace Sys2Proof.Laws

/-- The command word of every command's encoding is one of the three legal ones (30_encoding.md R81). -/
def LegalCommandWord.Statement (i : Instr) : Prop := decodeCommand (encode i).command ≠ .illegalCommand

theorem LegalCommandWord.round : LegalCommandWord.Statement .round := by
  simp [LegalCommandWord.Statement, decodeCommand, encode]

theorem LegalCommandWord.dec64 : LegalCommandWord.Statement .dec64 := by
  simp [LegalCommandWord.Statement, decodeCommand, encode]

theorem LegalCommandWord.move : LegalCommandWord.Statement .move := by
  simp [LegalCommandWord.Statement, decodeCommand, encode]

theorem LegalCommandWord.moveCopy (count : Word) : LegalCommandWord.Statement (.moveCopy count) := by
  simp [LegalCommandWord.Statement, decodeCommand, encode]

theorem LegalCommandWord.moveFill (count : Word) : LegalCommandWord.Statement (.moveFill count) := by
  simp [LegalCommandWord.Statement, decodeCommand, encode]

end Sys2Proof.Laws
end

