-- ==== Sys2Proof/Laws/Step.lean ====
section
/-! SUPPORT. What the write to CMD, a host statement and a step can do, said once, and a run of several steps in terms of
`step`. -/

namespace Sys2Proof.Machine

/-- A step with a statement pending runs that statement (R63). -/
theorem step_pending {s : State} {st : HostStmt} {rest : List HostStmt} (h : s.pending = st :: rest) :
    step s = runStatement st { s with pending := rest } := by
  simp only [step, runPending, h]

/-- With nothing pending the block is idle (R219). -/
theorem step_idle {s : State} (h : s.pending = []) : step s = .next s := by
  simp only [step, runPending, h]

/-! ## The write to CMD -/

/-- The ways a write to CMD ends (R26, R202, R212). -/
inductive CommandWrite (c : Word) (s : State) : State → Prop
  | ignored (h : s.status.getLsbD 0 = true) : CommandWrite c s s
  | illegal (h : s.status.getLsbD 0 = false) (hc : decodeCommand c = .illegalCommand) :
      CommandWrite c s (s.raise .illegalCommand c)
  | ran (i : Instr) (t : State) (h : s.status.getLsbD 0 = false) (hc : decodeCommand c = .command i)
      (hi : exec i s = .next t) (ht : CommandEnd s t) : CommandWrite c s t

theorem writeCommand_ends (c : Word) (s : State) : ∃ t, writeCommand c s = .next t ∧ CommandWrite c s t := by
  unfold writeCommand statusFault
  cases hf : s.status.getLsbD 0 with
  | true => exact ⟨s, rfl, .ignored hf⟩
  | false =>
    rw [if_neg Bool.false_ne_true]
    cases hc : decodeCommand c with
    | illegalCommand => exact ⟨_, rfl, .illegal hf hc⟩
    | command i =>
      obtain ⟨t, hi, ht⟩ := exec_ends i s
      exact ⟨t, hi, .ran i t hf hc hi ht⟩

theorem writeCommand_inv {c : Word} {s t : State} (h : writeCommand c s = .next t) : CommandWrite c s t := by
  obtain ⟨u, hu, hw⟩ := writeCommand_ends c s
  rw [hu] at h
  exact Host.Outcome.next.inj h ▸ hw

/-! ## One host statement -/

/-- A read of the window appends one reply, and records a reason where it has no meaning (R24-R30). -/
theorem readWindow_cases (width : Nat) (offset : Word) (s : State) :
    (∃ v, readWindow width offset s = s.reply (some v)) ∨ readWindow width offset s = refuseRead s := by
  have valid : ∀ r : Reg, (∃ v, readValid r s = s.reply (some v)) ∨ readValid r s = refuseRead s := by
    intro r
    unfold readValid
    split
    · exact .inl ⟨_, rfl⟩
    · exact .inr rfl
  unfold readWindow
  split
  · split
    · rename_i r _
      cases r with
      | cmd => exact .inl ⟨_, rfl⟩
      | arg0 => exact valid s.arg0
      | arg1 => exact valid s.arg1
      | arg2 => exact valid s.arg2
      | result => exact valid s.result
      | status => exact .inl ⟨_, rfl⟩
      | faddr => exact .inl ⟨_, rfl⟩
    · exact .inr rfl
  · exact .inr rfl

/-- What a host statement other than the reset input can do, where it ends in a next state (R87). -/
inductive HostEffect (s : State) : State → Prop
  | kept : HostEffect s s
  | replied (v : Word) : HostEffect s (s.reply (some v))
  | readRefused : HostEffect s (refuseRead s)
  | writeRefused : HostEffect s (refuseWrite s)
  | argsWritten (x y z : Reg) : HostEffect s { s with arg0 := x, arg1 := y, arg2 := z }
  | stored (m : Memory) (h : s.mem.wf → m.wf) : HostEffect s (s.withMem m)
  | commanded (c : Word) (t : State) (h : CommandWrite c s t) : HostEffect s t

theorem readWindow_effect (width : Nat) (offset : Word) (s : State) :
    HostEffect s (readWindow width offset s) := by
  rcases readWindow_cases width offset s with ⟨v, h⟩ | h <;> rw [h]
  · exact .replied v
  · exact .readRefused

theorem writeWindow_effect {width : Nat} {offset v : Word} {s t : State}
    (h : writeWindow width offset v s = .next t) : HostEffect s t := by
  unfold writeWindow at h
  split at h
  · split at h
    · rename_i r _
      cases r with
      | cmd => exact .commanded v t (writeCommand_inv h)
      | arg0 => exact Host.Outcome.next.inj h ▸ .argsWritten _ s.arg1 s.arg2
      | arg1 => exact Host.Outcome.next.inj h ▸ .argsWritten s.arg0 _ s.arg2
      | arg2 => exact Host.Outcome.next.inj h ▸ .argsWritten s.arg0 s.arg1 _
      | result => exact Host.Outcome.next.inj h ▸ .kept
      | status => exact Host.Outcome.next.inj h ▸ .kept
      | faddr => exact Host.Outcome.next.inj h ▸ .kept
    · exact Host.Outcome.next.inj h ▸ .writeRefused
  · exact Host.Outcome.next.inj h ▸ .writeRefused

theorem runStatement_effect {st : HostStmt} {s t : State} (h : runStatement st s = .next t) :
    HostEffect s t ∨ st = .reset ∧ t = s.resetInput := by
  cases st with
  | windowWrite width offset v => exact .inl (writeWindow_effect h)
  | windowRead width offset => exact .inl (Host.Outcome.next.inj h ▸ readWindow_effect width offset s)
  | stw a v =>
    simp only [runStatement, storeWord] at h
    split at h
    · exact .inl (writeWindow_effect h)
    · split_ifs at h
      exact .inl (Host.Outcome.next.inj h ▸ .stored _ fun hw => Memory.wf_writeWord hw _ _)
  | stb a b =>
    simp only [runStatement, storeByte] at h
    split at h
    · exact .inl (writeWindow_effect h)
    · split_ifs at h
      exact .inl (Host.Outcome.next.inj h ▸ .stored _ fun hw => Memory.wf_write hw _ _)
  | ldw a =>
    simp only [runStatement, loadWord] at h
    split at h
    · exact .inl (Host.Outcome.next.inj h ▸ readWindow_effect _ _ s)
    · split_ifs at h
      exact .inl (Host.Outcome.next.inj h ▸ .replied _)
  | ldb a =>
    simp only [runStatement, loadByte] at h
    split at h
    · exact .inl (Host.Outcome.next.inj h ▸ readWindow_effect _ _ s)
    · split_ifs at h
      exact .inl (Host.Outcome.next.inj h ▸ .replied _)
  | reset => exact .inr ⟨rfl, (Host.Outcome.next.inj h).symm⟩

/-- What one step can do: nothing while nothing is pending, else the effect of the statement taken. -/
theorem step_effect {s t : State} (h : step s = .next t) :
    s.pending = [] ∧ t = s ∨
    ∃ st rest, s.pending = st :: rest ∧
      (HostEffect { s with pending := rest } t ∨
        st = .reset ∧ t = State.resetInput { s with pending := rest }) := by
  cases hp : s.pending with
  | nil => exact .inl ⟨rfl, (Host.Outcome.next.inj ((step_idle hp).symm.trans h)).symm⟩
  | cons st rest => exact .inr ⟨st, rest, rfl, runStatement_effect ((step_pending hp).symm.trans h)⟩

/-! ## Runs -/

theorem run_succ (M : Host.Core) (k : Nat) (s : M.State) : M.run (k + 1) s =
    match M.step s with
    | .next t => M.run k t
    | .fault r => .fault r
    | .refused r => .refused r := rfl

/-- A run whose first step answers a next state goes on from there. -/
theorem run_next {k : Nat} {s t : State} (h : step s = .next t) : core.run (k + 1) s = core.run k t := by
  have h' : core.step s = .next t := h
  exact (run_succ core k s).trans (by rw [h'])

/-- A run stops at its first fault. -/
theorem run_fault {k : Nat} {s : State} {r : Fault} (h : step s = .fault r) : core.run (k + 1) s = .fault r := by
  have h' : core.step s = .fault r := h
  exact (run_succ core k s).trans (by rw [h'])

/-- A run stops at its first refusal. -/
theorem run_refused {k : Nat} {s : State} {r : Refusal} (h : step s = .refused r) :
    core.run (k + 1) s = .refused r := by
  have h' : core.step s = .refused r := h
  exact (run_succ core k s).trans (by rw [h'])

/-- A run of one step is that step. -/
theorem run_one (s : State) : core.run 1 s = step s := by
  cases h : step s with
  | next t => exact run_next h
  | fault r => exact run_fault h
  | refused r => exact run_refused h

end Sys2Proof.Machine
end

