-- ==== Sys2Proof/Tests/Slice0.lean ====
section
/-! SUPPORT. Tests: expected values are the spec's own (spec/95_test_vectors.md, named at each), and for every statement
with hypotheses a witness that meets them. -/

namespace Sys2Proof.Tests

open Sys2Proof Sys2Proof.Machine Sys2Proof.Spec

/-! ## Helpers: the conventions of 95_test_vectors.md section 2.1 -/

/-- A memory that holds the given words and zero elsewhere. -/
def image (words : List (Nat × Nat)) : Memory :=
  words.foldl (fun m w => m.writeWord (BitVec.ofNat 32 w.1) (BitVec.ofNat 32 w.2)) ⟨[], .fixed 0⟩

/-- Words of the HASH schedule at a base, for some indices. -/
def hashAt (sb : Nat) (indices : List Nat) : List (Nat × Nat) :=
  indices.map fun i => (sb + 4 * i, (0x9E3779B9 * i + 0x7F4A7C15) % 2 ^ 32)

/-- A clean state with a memory and ARG0 and ARG1 written. -/
def ready (m : Memory) (a0 a1 : Word) : State :=
  { State.reset with mem := m, arg0 := ⟨a0, true⟩, arg1 := ⟨a1, true⟩ }

/-- As `ready`, with ARG2 written too. -/
def ready3 (m : Memory) (a0 a1 a2 : Word) : State := { ready m a0 a1 with arg2 := ⟨a2, true⟩ }

/-- The next state, where there is one. -/
def after (o : Host.Outcome State Fault Refusal) : Option State :=
  match o with
  | .next t => some t
  | _ => none

/-- The words of memory at some addresses. -/
def wordsAt (t : State) (as : List Word) : List Word := as.map t.mem.readWord

/-! ## Well-formedness: bit 24 of COUNT (R82, R89) -/

theorem test_illFormed_copy : WellFormed (.moveCopy 0x01000000#32) = false := by decide
theorem test_illFormed_fill : WellFormed (.moveFill 0x01000002#32) = false := by decide
theorem test_wellFormed_edges :
    WellFormed (.moveCopy 0xFEFFFFFF#32) = true ∧ WellFormed (.moveFill 0x00FFFFFF#32) = true := by decide

/-! ## Decoding: words written out field by field from the formats CMD and MOVCTL -/

theorem test_decode_round : decode ⟨0#24 ++ 0x01#8, none⟩ = .command .round := by decide
theorem test_decode_dec64 : decode ⟨0#24 ++ 0x02#8, none⟩ = .command .dec64 := by decide
theorem test_decode_move : decode ⟨0#24 ++ 0x03#8, none⟩ = .command .move := by decide
/-- COUNT_HI = 0x40, FILL = 0, COUNT_LO = 1: COUNT = 0x80000001 (R160). -/
theorem test_decode_copy :
    decode ⟨0#24 ++ 0x03#8, some (0x40#7 ++ 0#1 ++ 1#24 : BitVec (7 + 1 + 24))⟩ =
      .command (.moveCopy 0x80000001#32) := by decide
/-- COUNT_HI = 0, FILL = 1, COUNT_LO = 4 (V-MOV-1). -/
theorem test_decode_fill :
    decode ⟨0#24 ++ 0x03#8, some (0#7 ++ 1#1 ++ 4#24 : BitVec (7 + 1 + 24))⟩ = .command (.moveFill 4#32) := by
  decide
/-- RSV bit 8 set (V-HOST-6). -/
theorem test_decode_reserved : decode ⟨1#24 ++ 0x01#8, none⟩ = .illegalCommand := by decide

/-! ## The ALU and addresses -/

/-- V-ALU-1, V-ALU-2, V-ALU-3 and V-ALU-6. -/
theorem test_alu :
    add32 0x80000000#32 0x80000000#32 = 0#32 ∧ add32 0xFFFFFFFF#32 1#32 = 0#32 ∧
    add32 0xFFFFFFFF#32 0xFFFFFFFF#32 = 0xFFFFFFFE#32 ∧ xor32 0x00000212#32 0x00000124#32 = 0x00000336#32 := by
  decide
/-- V-ADDR-1 and V-ADDR-4. -/
theorem test_addresses :
    addressA 0x00010000#32 0xDEADBEEF#32 = 0x00011004#32 ∧ addressB 0x00010000#32 0xDEADBEEF#32 = 0x00010B40#32 ∧
    addressC 0x00010000#32 0xDEADBEEF#32 = 0x000106FC#32 ∧ addressD 0x00010000#32 0xDEADBEEF#32 = 0x000103C0#32 ∧
    wordAddress 0x00010000#32 17 = 0x00010044#32 := by decide
/-- V-RND-GROUP: the spec's grouping on the entries of V-RND-9. -/
theorem test_grouping :
    roundMix 0xEDF02F86#32 0xB3184BF4#32 0x78406862#32 0x3D6884D0#32 = 0xF4A0D64C#32 := by decide

/-! ## ROUND -/

/-- V-RND-9: HASH, w = 0x01234567. -/
theorem test_round_hash :
    (after (exec .round (ready (image (hashAt 0x10000 [889, 599, 309, 19])) 0x00010000#32 0x01234567#32))).map
      (fun t => (t.result.get?, t.status, t.trace.length)) = some (some 0xF4A0D64C#32, 0#32, 4) := by decide +kernel
/-- V-RND-F5: the first read, tA, is not Mapped. -/
theorem test_round_busError :
    (after (exec .round (ready (image []) 0x0003F000#32 0x000000EE#32))).map
      (fun t => (t.status, t.faddr, t.result.get?, t.arg0.get?, t.trace)) =
      some (0x00000041#32, 0x00040000#32, none, none, []) := by decide +kernel

/-! ## DEC64 -/

/-- The K indices V-DEC-4 reads. -/
def dec4Indices : List Nat :=
  List.range 18 ++
  [814, 692, 351, 254, 918, 746, 301, 99, 882, 576, 320, 205, 1016, 622, 523, 229, 862, 732, 307, 182] ++
  [972, 562, 370, 61, 869, 662, 362, 63, 969, 758, 464, 47, 983, 538, 345, 204, 984, 659, 278, 232] ++
  [1030, 747, 275, 263, 828, 643, 511, 150, 992, 696, 391, 211, 1039, 678, 421, 79] ++
  [1025, 694, 478, 209, 900, 587, 379, 144]

/-- V-DEC-4: HASH, the block (0xECB43342, 0x6DE663E8). -/
theorem test_dec64_hash :
    (after (exec .dec64 (ready (image (hashAt 0x10000 dec4Indices ++ [(0x20000, 0xECB43342), (0x20004, 0x6DE663E8)]))
      0x00010000#32 0x00020000#32))).map
      (fun t => (wordsAt t [0x00020000#32, 0x00020004#32], t.status, t.trace.length)) =
      some ([0x01234567#32, 0x89ABCDEF#32], 0#32, 86) := by decide +kernel
/-- V-DEC-F2: BA is misaligned and SB wraps: misalignment is checked first. -/
theorem test_dec64_misaligned :
    (after (exec .dec64 (ready (image []) 0xFFFFF000#32 0x00020001#32))).map (fun t => (t.status, t.faddr, t.trace)) =
      some (0x00000021#32, 0x00020001#32, []) := by decide

/-! ## MOVE -/

/-- The start memory of section 6. -/
def moveImage : Memory :=
  image [(0x30000, 0xA5A5A5A5), (0x30010, 0x11111111), (0x30014, 0x22222222), (0x30018, 0x33333333),
    (0x3001C, 0x44444444)]

/-- V-MOV-1. -/
theorem test_fill :
    (after (exec (.moveFill 4#32) (ready moveImage 0x00030000#32 0x00030100#32))).map
      (fun t => (wordsAt t [0x00030100#32, 0x00030104#32, 0x00030108#32, 0x0003010C#32, 0x00030110#32],
        t.trace.length)) =
      some ([0xA5A5A5A5#32, 0xA5A5A5A5#32, 0xA5A5A5A5#32, 0xA5A5A5A5#32, 0#32], 8) := by decide +kernel
/-- V-MOV-2. -/
theorem test_copy :
    (after (exec (.moveCopy 4#32) (ready moveImage 0x00030010#32 0x00030200#32))).map
      (fun t => (wordsAt t [0x00030200#32, 0x00030204#32, 0x00030208#32, 0x0003020C#32, 0x00030210#32],
        t.trace.take 3)) =
      some ([0x11111111#32, 0x22222222#32, 0x33333333#32, 0x44444444#32, 0#32],
        [.read 0x00030010#32, .write 0x00030200#32, .read 0x00030014#32]) := by decide +kernel
/-- V-MOV-F4: in fill mode the source range is 4 bytes and passes; the destination wraps. -/
theorem test_move_fill_wraps :
    (after (exec .move (ready3 moveImage 0x00030000#32 0x00030100#32 0x81000001#32))).map
      (fun t => (t.status, t.faddr, t.trace)) = some (0x00000031#32, 0x00030100#32, []) := by decide
/-- V-MOV-F8: the read is made, the write is not Mapped. -/
theorem test_move_busError :
    (after (exec .move (ready3 moveImage 0x00030000#32 0xFFFFFFFC#32 0x01000001#32))).map
      (fun t => (t.status, t.faddr, t.trace)) =
      some (0x00000041#32, 0xFFFFFFFC#32, [.read 0x00030000#32]) := by decide +kernel

/-! ## The host's statements -/

/-- V-HOST-2: a read of an invalid ARG0 gives no value, and UNDEF records it. -/
theorem test_host_undefinedRead :
    (after (step { State.reset with pending := [asmRd .arg0] })).map (fun t => (t.replies, t.undef.hostUndefinedRead)) =
      some ([none], true) := by decide
/-- V-HOST-9: an illegal command, not UNDEFINED_OPERAND. -/
theorem test_host_illegal :
    (after (step { State.reset with pending := [asmWr .cmd 4#32] })).map
      (fun t => (t.status, t.faddr, t.faultLog, t.undef.isEmpty)) =
      some (0x00000011#32, 0x00000004#32, [(.illegalCommand, 4#32)], true) := by decide
/-- V-HOST-12: RESET clears STATUS, and FAULTLOG stays. -/
theorem test_host_reset :
    (after (step { State.reset with
      pending := [.reset], status := 0x11#32, faultLog := [(.illegalCommand, 0#32)] })).map
      (fun t => (t.status, t.faultLog)) = some (0#32, [(.illegalCommand, 0#32)]) := by decide
/-- V-HOST-13: offset 0x20 is refused. -/
theorem test_host_refused :
    (after (step { State.reset with pending := [.windowWrite 32 0x20#32 5#32] })).map
      (fun t => t.undef.hostUndefinedWrite) = some true := by decide
/-- 10_state.md R53 and 95_test_vectors.md P3: the byte at a is bits 7:0 of the word at a. -/
theorem test_host_bytes :
    (after (step { ready moveImage 0#32 0#32 with pending := [.stw 0x00030300#32 0x11223344#32] })).map
      (fun t => [t.mem.read 0x00030300#32, t.mem.read 0x00030303#32]) = some [0x44#8, 0x11#8] := by decide +kernel

/-! ## A row's word is issued and runs -/

theorem test_rows_issue :
    (State.reset.withFetchWord 32 2).pending = [asmWr .cmd 2#32] ∧
    (State.reset.withFetchWord 32 0x01000000).arg2 = Reg.written 0x01000000#32 := by decide

/-! ## Witnesses: for each statement with hypotheses, a state and operands that meet them all -/

/-- V-INV's second PONLY row: the schedule PONLY at 0x00010000, and the block that is the reference encryption of
(0x01234567, 0x89ABCDEF). -/
def ponlyState : State :=
  ready (image (((List.range 16).map fun i => (0x10000 + 4 * i, 0x11111111 * i)) ++
    [(0x10040, 0x10101010), (0x10044, 0x11111111), (0x20000, 0x98BADCFE), (0x20004, 0x11335577)]))
    0x00010000#32 0x00020000#32

/-- All memory zero, SB = 0x00010000, BA = 0x00020000. -/
def zeroState : State := ready (image []) 0x00010000#32 0x00020000#32

/-- V-MOV-2 and V-MOV-1 as MOVE with a control word. -/
def copyState : State := ready3 moveImage 0x00030010#32 0x00030200#32 4#32
def fillState : State := ready3 moveImage 0x00030000#32 0x00030100#32 0x01000004#32

/-- A state whose next statement is `st`, and the state the statement acts on. -/
def before (s : State) (st : HostStmt) : State := { s with pending := st :: s.pending }

theorem next_before (s : State) (st : HostStmt) : Next (before s st) st s := ⟨rfl, rfl⟩

theorem zero_words (a : Word) : zeroState.mem.readWord a = 0#32 := by
  simp [zeroState, ready, image, Memory.readWord, Memory.read, lookupCell, Background.read]

theorem checked_ponly : Checked .dec64 ponlyState :=
  ⟨⟨[0x00010000#32, 0x00020000#32], rfl, by simp⟩, by decide +kernel,
    (show ¬(_ < _ ∧ _ < _) by decide +kernel)⟩
theorem mapped_ponly : AllMapped .dec64 ponlyState := (show ∀ x ∈ accesses .dec64 ponlyState, _ = true by decide +kernel)
theorem checked_zero : Checked .dec64 zeroState :=
  ⟨⟨[0x00010000#32, 0x00020000#32], rfl, by simp⟩, by decide +kernel,
    (show ¬(_ < _ ∧ _ < _) by decide +kernel)⟩
theorem mapped_zero : AllMapped .dec64 zeroState := (show ∀ x ∈ accesses .dec64 zeroState, _ = true by decide +kernel)
theorem checked_copy : Checked .move copyState :=
  ⟨⟨[0x00030010#32, 0x00030200#32], rfl, by simp⟩, by decide +kernel,
    (show ¬(_ < _ ∧ _ < _) by decide +kernel)⟩
theorem checked_fill : Checked .move fillState :=
  ⟨⟨[0x00030000#32, 0x00030100#32], rfl, by simp⟩, by decide +kernel,
    (show ¬(_ < _ ∧ _ < _) by decide +kernel)⟩
theorem mapped_copy : AllMapped .move copyState := (show ∀ x ∈ accesses .move copyState, _ = true by decide +kernel)
theorem mapped_fill : AllMapped .move fillState := (show ∀ x ∈ accesses .move fillState, _ = true by decide +kernel)

theorem witness_DecodeOfEncode : WellFormed (.moveFill 0xFEFFFFFF#32) = true := by decide
theorem witness_DecodedCommandsAreEncodable : decode ⟨3#32, some 0xFFFFFFFF#32⟩ = .command (.moveFill 0xFEFFFFFF#32) := by
  decide
theorem witness_ControlWordFields : (0x01000000#32).getLsbD 24 = true ∧ (0xFEFFFFFF#32).getLsbD 24 = false := by decide
theorem witness_StepRunsTheDecodedCommand :
    Next (before copyState (.windowWrite 32 0x00#32 3#32)) (.windowWrite 32 0x00#32 3#32) copyState ∧
    copyState.status.getLsbD 0 = false ∧ decode ⟨3#32, copyState.arg2.get?⟩ = .command (.moveCopy 4#32) :=
  ⟨next_before _ _, by decide, by decide⟩

/-- The state after V-HOST-5. -/
def faultedState : State := State.reset.raise .illegalCommand 0#32

theorem witness_FaultedBlockIgnoresCommands :
    Next (before faultedState (.windowWrite 32 0x00#32 1#32)) (.windowWrite 32 0x00#32 1#32) faultedState ∧
    (before faultedState (.windowWrite 32 0x00#32 1#32)).status.getLsbD 0 = true := ⟨next_before _ _, by decide⟩
theorem witness_IllegalCommandRaises :
    Next (before zeroState (.windowWrite 32 0x00#32 4#32)) (.windowWrite 32 0x00#32 4#32) zeroState ∧
    (before zeroState (.windowWrite 32 0x00#32 4#32)).status.getLsbD 0 = false ∧
    4#32 ≠ 1#32 ∧ 4#32 ≠ 2#32 ∧ 4#32 ≠ 3#32 := ⟨next_before _ _, by decide, by decide, by decide, by decide⟩

/-- SB at its highest value, 0xFFFFEFB8, on a platform that maps all of memory. -/
def topState : State :=
  { ready (image []) 0xFFFFEFB8#32 0xFFFFFFFF#32 with platform := ⟨[⟨0, 2 ^ 32⟩], none⟩ }

theorem witness_RoundComputesF :
    topState.arg0.get? = some 0xFFFFEFB8#32 ∧ topState.arg1.get? = some 0xFFFFFFFF#32 ∧
    (0xFFFFEFB8#32).toNat % 4 = 0 ∧ (0xFFFFEFB8#32).toNat + 4168 ≤ 2 ^ 32 ∧
    ∀ x ∈ roundReads 0xFFFFEFB8#32 0xFFFFFFFF#32, topState.platform.mapped x.address = true := by decide +kernel

/-- V-RND-F6's state: the first read is not Mapped. -/
def unmappedState : State := ready (image []) 0x0003F000#32 0xFFFFFFFF#32

theorem witness_RoundReadsInOrder :
    unmappedState.arg0.get? = some 0x0003F000#32 ∧ unmappedState.arg1.get? = some 0xFFFFFFFF#32 ∧
    (0x0003F000#32).toNat % 4 = 0 ∧ (0x0003F000#32).toNat + 4168 ≤ 2 ^ 32 ∧
    (roundReads 0x0003F000#32 0xFFFFFFFF#32 = [] ++ .read 0x00040044#32 ::
      [.read 0x0003FC44#32, .read 0x0003F844#32, .read 0x0003F444#32]) ∧
    unmappedState.platform.mapped 0x00040044#32 = false := by decide +kernel
theorem checked_round : Checked .round zeroState := ⟨⟨[0x00010000#32], rfl, by simp⟩, by decide +kernel, id⟩
theorem mapped_round : AllMapped .round zeroState := (show ∀ x ∈ accesses .round zeroState, _ = true by decide +kernel)
theorem witness_RoundDependsOnlyOnSBoxes :
    zeroState.arg0.get? = some 0x00010000#32 ∧ zeroState.arg1.get? = some 0x00020000#32 ∧ Checked .round zeroState ∧
    AllMapped .round zeroState ∧
    ∀ i, 18 ≤ i → i ≤ 1041 → schedule zeroState 0x00010000#32 i = schedule zeroState 0x00010000#32 i :=
  ⟨rfl, rfl, checked_round, mapped_round, fun _ _ _ => rfl⟩

/-- For Dec64DecryptsTheBlock, Dec64AccessOrder and Dec64TraversesThePArray. -/
theorem witness_Dec64DecryptsTheBlock :
    ponlyState.arg0.get? = some 0x00010000#32 ∧ ponlyState.arg1.get? = some 0x00020000#32 ∧
    Checked .dec64 ponlyState ∧ AllMapped .dec64 ponlyState := ⟨rfl, rfl, checked_ponly, mapped_ponly⟩
theorem witness_Dec64WithZeroSBoxes :
    zeroState.arg0.get? = some 0x00010000#32 ∧ zeroState.arg1.get? = some 0x00020000#32 ∧
    Checked .dec64 zeroState ∧ AllMapped .dec64 zeroState ∧
    ∀ i, 18 ≤ i → i ≤ 1041 → schedule zeroState 0x00010000#32 i = 0#32 :=
  ⟨rfl, rfl, checked_zero, mapped_zero, fun _ _ _ => zero_words _⟩
/-- V-INV's second PONLY row: the block holds the reference encryption of (0x01234567, 0x89ABCDEF). -/
theorem witness_Dec64InvertsEncryption :
    ponlyState.arg0.get? = some 0x00010000#32 ∧ ponlyState.arg1.get? = some 0x00020000#32 ∧
    Checked .dec64 ponlyState ∧ AllMapped .dec64 ponlyState ∧
    (ponlyState.mem.readWord 0x00020000#32, ponlyState.mem.readWord (0x00020000#32 + 4#32)) =
      encryptF (schedule ponlyState 0x00010000#32) (0x01234567#32, 0x89ABCDEF#32) :=
  ⟨rfl, rfl, checked_ponly, mapped_ponly, by decide +kernel⟩
theorem witness_Dec64DependsOnlyOnScheduleAndBlock :
    Checked .dec64 ponlyState ∧ AllMapped .dec64 ponlyState ∧
    (∀ i, i ≤ 1041 → schedule ponlyState 0x00010000#32 i = schedule ponlyState 0x00010000#32 i) ∧
    ponlyState.arg0.get? = some 0x00010000#32 ∧ ponlyState.arg1.get? = some 0x00020000#32 :=
  ⟨checked_ponly, mapped_ponly, fun _ _ => rfl, rfl, rfl⟩
/-- At the last byte of the schedule. -/
theorem witness_ScheduleIsNeverWritten :
    zeroState.arg0.get? = some 0x00010000#32 ∧ (∃ t, exec .round zeroState = .next t ∧ ¬EndsUndefined zeroState t) ∧
    (0x00010000#32).toNat ≤ (0x00011047#32).toNat ∧ (0x00011047#32).toNat < (0x00010000#32).toNat + 0x1048 :=
  ⟨rfl, ⟨_, rfl, fun h => by
    have hd : (roundOn 0x00010000#32 0x00020000#32 zeroState).draws = 1 := by decide +kernel
    rcases h with h | h <;> exact absurd (hd.symm.trans (congrArg State.draws h)) (by decide)⟩,
   by decide, by decide⟩

theorem witness_CopyMovesEveryWord :
    copyState.arg0.get? = some 0x00030010#32 ∧ copyState.arg1.get? = some 0x00030200#32 ∧
    moveForm .move copyState = some (.copy, 4) ∧ Checked .move copyState ∧ AllMapped .move copyState :=
  ⟨rfl, rfl, by decide, checked_copy, mapped_copy⟩
theorem witness_FillBroadcastsTheSourceWord :
    fillState.arg0.get? = some 0x00030000#32 ∧ fillState.arg1.get? = some 0x00030100#32 ∧
    moveForm .move fillState = some (.fill, 4) ∧ Checked .move fillState ∧ AllMapped .move fillState :=
  ⟨rfl, rfl, by decide, checked_fill, mapped_fill⟩

/-- A fill of one word whose source is not Mapped. -/
def farState : State := ready3 (image []) 0xFFFFFFFC#32 0x00030000#32 0x01000001#32

theorem checked_far : Checked .move farState :=
  ⟨⟨[0xFFFFFFFC#32, 0x00030000#32], rfl, by simp⟩, by decide +kernel,
    (show ¬(_ < _ ∧ _ < _) by decide +kernel)⟩
theorem witness_FillBroadcastsTheSourceWord_unmapped :
    farState.arg0.get? = some 0xFFFFFFFC#32 ∧ farState.arg1.get? = some 0x00030000#32 ∧
    moveForm .move farState = some (.fill, 1) ∧ Checked .move farState ∧ 0 < 1 ∧
    farState.platform.mapped 0xFFFFFFFC#32 = false := ⟨rfl, rfl, by decide, checked_far, by decide, by decide⟩
/-- V-MOV-9's and V-MOV-F2's operands: the clauses of MoveOfNothing. -/
theorem witness_MoveOfNothing :
    (ready3 moveImage 0xFFFFFFFC#32 0#32 0#32).arg0.get? = some 0xFFFFFFFC#32 ∧
    (ready3 moveImage 0xFFFFFFFC#32 0#32 0#32).arg1.get? = some 0#32 ∧
    moveForm .move (ready3 moveImage 0xFFFFFFFC#32 0#32 0#32) = some (.copy, 0) ∧
    (0xFFFFFFFC#32).toNat % 4 = 0 ∧ (0#32).toNat % 4 = 0 := ⟨rfl, rfl, by decide, by decide, by decide⟩
theorem witness_MoveOfNothing_misaligned :
    (ready3 moveImage 0x00030000#32 0x00030102#32 0x01000000#32).arg0.get? = some 0x00030000#32 ∧
    (ready3 moveImage 0x00030000#32 0x00030102#32 0x01000000#32).arg1.get? = some 0x00030102#32 ∧
    moveForm .move (ready3 moveImage 0x00030000#32 0x00030102#32 0x01000000#32) = some (.fill, 0) ∧
    (0x00030000#32).toNat % 4 = 0 ∧ (0x00030102#32).toNat % 4 ≠ 0 ∧
    moveForm .move (ready3 moveImage 0x00030003#32 0x00030102#32 0#32) = some (.copy, 0) ∧
    (ready3 moveImage 0x00030003#32 0x00030102#32 0#32).arg0.get? = some 0x00030003#32 ∧
    (0x00030003#32).toNat % 4 ≠ 0 :=
  ⟨rfl, rfl, by decide, by decide, by decide, by decide, rfl, by decide⟩
theorem witness_RepeatedMoveChangesNothing :
    fillState.arg0.get? = some 0x00030000#32 ∧ fillState.arg1.get? = some 0x00030100#32 ∧
    moveForm .move fillState = some (.fill, 4) ∧ Checked .move fillState ∧ AllMapped .move fillState :=
  ⟨rfl, rfl, by decide, checked_fill, mapped_fill⟩
theorem witness_MoveAlwaysEnds :
    WellFormed (.moveCopy 0xFEFFFFFF#32) = true ∧
    moveForm (.moveCopy 0xFEFFFFFF#32) State.reset = some (.copy, 0xFEFFFFFF) := by decide

theorem witness_MisalignedOperandRaises :
    addressOperands .dec64 (ready (image []) 0xFFFFF000#32 0x00020001#32) = some [0xFFFFF000#32, 0x00020001#32] ∧
    [0xFFFFF000#32, 0x00020001#32].find? (fun a => a.toNat % 4 ≠ 0) = some 0x00020001#32 := by decide

/-- V-DEC-F4's state: BA + 8 is above 2^32. -/
def wrapState : State := ready (image []) 0x00010000#32 0xFFFFFFFC#32

theorem witness_WrappingRangeRaises :
    Aligned .dec64 wrapState ∧
    (ranges .dec64 wrapState).find? (fun r => 2 ^ 32 < r.1.toNat + r.2) = some (0xFFFFFFFC#32, 8) :=
  ⟨⟨[0x00010000#32, 0xFFFFFFFC#32], rfl, by simp⟩, by decide +kernel⟩
theorem witness_FirstUnmappedAccessRaises :
    Checked .move farState ∧
    accesses .move farState = [] ++ .read 0xFFFFFFFC#32 :: [.write 0x00030000#32] ∧
    farState.platform.mapped 0xFFFFFFFC#32 = false := ⟨checked_far, by decide, by decide⟩
/-- The last word of a window mapped at 0x00020000 (R58). -/
theorem witness_FirstUnmappedAccessRaises_window :
    (Platform.mk [⟨0x20000, 0x100⟩] (some 0x00020000#32)).coreBase = some 0x00020000#32 ∧
    (0x00020000#32).toNat ≤ (0x0002001C#32).toNat ∧ (0x0002001C#32).toNat < (0x00020000#32).toNat + 0x20 ∧
    Platform.mapped ⟨[⟨0x20000, 0x100⟩], some 0x00020000#32⟩ 0x0002001C#32 = false ∧
    Platform.mapped ⟨[⟨0x20000, 0x100⟩], some 0x00020000#32⟩ 0x00020020#32 = true :=
  ⟨rfl, by decide, by decide, by decide, by decide⟩
/-- A bus error, with the last byte of its destination word and the first one after it. -/
theorem witness_MemoryAfterABlockFault :
    (∃ t, writeCommand 3#32 farState = .next t ∧ t.faultLog = farState.faultLog ++ [(.busError, 0xFFFFFFFC#32)]) ∧
    decodeCommand 3#32 = .command .move ∧ InDestination .move farState 0x00030003#32 ∧
    farState.platform.mapped 0x00030003#32 = true ∧ ¬InDestination .move farState 0x00030004#32 :=
  ⟨⟨_, rfl, by decide⟩, by decide, ⟨0x00030000#32, rfl, by decide, by decide⟩, by decide, fun ⟨d, hd, _, h⟩ => by
    obtain rfl : 0x00030000#32 = d := Option.some.inj hd
    exact absurd h (by decide)⟩
/-- A fault that is no bus error: V-DEC-F4's. -/
theorem witness_MemoryAfterABlockFault_wrap :
    ∃ t, writeCommand 2#32 wrapState = .next t ∧ t.faultLog = wrapState.faultLog ++ [(.addressWrap, 0xFFFFFFFC#32)] :=
  ⟨_, rfl, by decide⟩
/-- V-MOV-F16: ARG2 is not written. -/
theorem witness_InvalidOperandIsAModelFault : addressOperands .move zeroState = none := by decide

/-- V-DEC-F7's state: the block overlaps the schedule's last word. -/
def overlapState : State := ready (image []) 0x00010000#32 0x00011044#32

theorem witness_OverlapIsAModelFault :
    Aligned .dec64 overlapState ∧ InRange .dec64 overlapState ∧ Overlap .dec64 overlapState :=
  ⟨⟨[0x00010000#32, 0x00011044#32], rfl, by simp⟩, by decide +kernel, (show _ < _ ∧ _ < _ by decide +kernel)⟩

/-- ROUND completes from `zeroState`: for OnlyCompletedRoundMakesResultValid and StaleArgumentsAreUndefined. -/
theorem witness_StaleArgumentsAreUndefined :
    zeroState.status.getLsbD 0 = false ∧
    (∃ t, writeCommand 1#32 zeroState = .next t ∧ ¬EndsUndefined zeroState t ∧ t.status.getLsbD 0 = false) ∧
    decodeCommand 3#32 ≠ .illegalCommand :=
  ⟨rfl, ⟨_, rfl, fun h => by
    have hd : (roundOn 0x00010000#32 0x00020000#32 zeroState).draws = 1 := by decide +kernel
    rcases h with h | h <;> exact absurd (hd.symm.trans (congrArg State.draws h)) (by decide),
    (show (roundOn 0x00010000#32 0x00020000#32 zeroState).status.getLsbD 0 = false by decide +kernel)⟩, by decide⟩
theorem witness_ArgumentsEndInvalid : faultedState.status.getLsbD 0 = true ∧ zeroState.status.getLsbD 0 = false := by
  decide
theorem witness_EveryAccessIsAlignedAndMapped : ∃ t, exec .round zeroState = .next t := ⟨_, rfl⟩

/-- For RegisterReads: a valid and an invalid argument, and the offsets of every clause. -/
theorem witness_RegisterReads :
    Next (before zeroState (.windowRead 32 0x04#32)) (.windowRead 32 0x04#32) zeroState ∧
    zeroState.arg0.get? = some 0x00010000#32 ∧
    Next (before zeroState (.windowRead 32 0x10#32)) (.windowRead 32 0x10#32) zeroState ∧
    zeroState.result.get? = none ∧
    Next (before zeroState (.windowRead 32 0x18#32)) (.windowRead 32 0x18#32) zeroState :=
  ⟨next_before _ _, rfl, next_before _ _, rfl, next_before _ _⟩
theorem witness_RegisterWrites :
    Next (before faultedState (.windowWrite 32 0x0C#32 5#32)) (.windowWrite 32 0x0C#32 5#32) faultedState ∧
    Next (before faultedState (.windowWrite 32 0x14#32 0#32)) (.windowWrite 32 0x14#32 0#32) faultedState :=
  ⟨next_before _ _, next_before _ _⟩
/-- V-HOST-13's offsets, and another width at a good offset. -/
theorem witness_WindowRefusals :
    RefusedOffset 0x1C#32 ∧ RefusedOffset 0x02#32 ∧ RefusedOffset 0x20#32 ∧ ¬RefusedOffset 0x18#32 ∧ (8 : Nat) ≠ 32 ∧
    Next (before zeroState (.windowRead 8 0x04#32)) (.windowRead 8 0x04#32) zeroState :=
  ⟨by decide, by decide, by decide, by decide, by decide, next_before _ _⟩

/-- At the last Mapped word of the platform. -/
theorem witness_HostWordsAreLittleEndian :
    zeroState.platform.windowOffset 0x0003FFFC#32 = none ∧ (0x0003FFFC#32).toNat + 4 ≤ 2 ^ 32 ∧
    zeroState.platform.mapped 0x0003FFFC#32 = true ∧ zeroState.platform.mapped (0x0003FFFC#32 + 3#32) = true ∧
    Next (before zeroState (.stw 0x0003FFFC#32 5#32)) (.stw 0x0003FFFC#32 5#32) zeroState ∧
    Next (before zeroState (.ldw 0x0003FFFC#32)) (.ldw 0x0003FFFC#32) zeroState :=
  ⟨rfl, by decide, by decide, by decide, next_before _ _, next_before _ _⟩
/-- The last Mapped byte of the platform, for the byte accesses. -/
theorem witness_HostWordsAreLittleEndian_byte :
    zeroState.platform.windowOffset 0x0003FFFF#32 = none ∧ zeroState.platform.mapped 0x0003FFFF#32 = true ∧
    Next (before zeroState (.stb 0x0003FFFF#32 5#8)) (.stb 0x0003FFFF#32 5#8) zeroState ∧
    Next (before zeroState (.ldb 0x0003FFFF#32)) (.ldb 0x0003FFFF#32) zeroState :=
  ⟨rfl, by decide, next_before _ _, next_before _ _⟩
theorem witness_LoadReturnsTheLastStore :
    (before (before zeroState (.ldw 0x00020004#32)) (.stw 0x00020000#32 5#32)).pending =
      .stw 0x00020000#32 5#32 :: .ldw 0x00020004#32 :: [] ∧
    (0x00020000#32).toNat % 4 = 0 ∧ (0x00020004#32).toNat % 4 = 0 ∧
    (before (before zeroState (.ldw 0x00020004#32)) (.stw 0x00020000#32 5#32)).platform = zeroState.platform ∧
    zeroState.platform.mapped 0x00020000#32 = true ∧ zeroState.platform.mapped 0x00020004#32 = true ∧
    zeroState.platform.windowOffset 0x00020000#32 = none ∧ zeroState.platform.windowOffset 0x00020004#32 = none :=
  ⟨rfl, by decide, by decide, rfl, by decide, by decide, rfl, rfl⟩
/-- A state whose platform maps the window at the top of the address space. -/
def windowState : State := { zeroState with platform := ⟨[⟨0x00010000, 0x00030000⟩], some 0xFFFFFFE0#32⟩ }

/-- A word access that starts in Mapped memory and whose last byte is not Mapped, one that passes 2^32, and the byte
accesses of the other clauses. -/
theorem witness_HostAccessOutsideMemory_edges :
    zeroState.platform.windowOffset 0x0003FFFD#32 = none ∧ zeroState.platform.mapped 0x0003FFFD#32 = true ∧
    zeroState.platform.mapped (0x0003FFFD#32 + 3#32) = false ∧
    Next (before zeroState (.stw 0x0003FFFD#32 5#32)) (.stw 0x0003FFFD#32 5#32) zeroState ∧
    topState.platform.windowOffset 0xFFFFFFFD#32 = none ∧ topState.platform.mapped 0xFFFFFFFD#32 = true ∧
    2 ^ 32 < (0xFFFFFFFD#32).toNat + 4 ∧
    Next (before windowState (.stb 0xFFFFFFE0#32 5#8)) (.stb 0xFFFFFFE0#32 5#8) windowState ∧
    Next (before zeroState (.ldb 0x0000FFFF#32)) (.ldb 0x0000FFFF#32) zeroState ∧
    zeroState.platform.windowOffset 0x0000FFFF#32 = none ∧ zeroState.platform.mapped 0x0000FFFF#32 = false :=
  ⟨rfl, by decide, by decide, next_before _ _, rfl, by decide, by decide, next_before _ _, next_before _ _, rfl, by decide⟩
/-- The last byte address of a mapped window, and an address that is not Mapped. -/
theorem witness_HostAccessOutsideMemory :
    windowState.platform.coreBase = some 0xFFFFFFE0#32 ∧
    Next (before windowState (.ldw 0xFFFFFFFF#32)) (.ldw 0xFFFFFFFF#32) windowState ∧
    (0xFFFFFFE0#32).toNat ≤ (0xFFFFFFFF#32).toNat ∧ (0xFFFFFFFF#32).toNat < (0xFFFFFFE0#32).toNat + 0x20 ∧
    zeroState.platform.windowOffset 0x00040000#32 = none ∧ zeroState.platform.mapped 0x00040000#32 = false ∧
    Next (before zeroState (.ldw 0x00040000#32)) (.ldw 0x00040000#32) zeroState :=
  ⟨rfl, next_before _ _, by decide, by decide, rfl, by decide, next_before _ _⟩

theorem witness_ResetInput :
    Next (before faultedState .reset) .reset faultedState ∧ faultedState.status.getLsbD 0 = true ∧
    (∃ t, step (before faultedState .reset) = .next t ∧ t.status.getLsbD 0 = false) :=
  ⟨next_before _ _, by decide, ⟨_, rfl, by decide +kernel⟩⟩
theorem witness_FaultsStayUntilReset :
    faultedState.status.getLsbD 0 = true ∧
    (before faultedState (.windowWrite 32 0x14#32 0#32)).pending.head? ≠ some .reset ∧
    ∃ t, step (before faultedState (.windowWrite 32 0x14#32 0#32)) = .next t :=
  ⟨by decide, by decide, ⟨_, rfl⟩⟩

/-- The invariants hold after a fault and after the start of a run, and such states step. -/
theorem witness_StatusStaysLegal :
    statusLegal faultedState.status = true ∧ ∃ t, step (before faultedState .reset) = .next t :=
  ⟨by decide, ⟨_, rfl⟩⟩
theorem witness_MemoryStaysCanonical :
    moveImage.wf ∧ ∃ t, step (before zeroState (.stw 0x00020000#32 5#32)) = .next t :=
  ⟨by decide +kernel, ⟨_, rfl⟩⟩
theorem witness_FaultRegistersAgreeWithTheLog :
    FaultInv faultedState ∧ faultedState.Defined ∧ ∃ t, step (before faultedState .reset) = .next t :=
  ⟨fun _ => .inr ⟨.illegalCommand, 0#32, by decide, by decide, by decide⟩, by decide, ⟨_, rfl⟩⟩
theorem witness_CleanEndMeansCleanRun :
    core.run 1 (before zeroState (.ldw 0x00020000#32)) = core.run 0 (zeroState.reply (some 0#32)) ∧
    (zeroState.reply (some 0#32)).Clean := ⟨rfl, by decide +kernel⟩
theorem witness_StepsKeepThePlatform : ∃ t, step (before zeroState .reset) = .next t := ⟨_, rfl⟩
theorem witness_OperationStatementsExpand : zeroState.status.getLsbD 0 = false := by decide
theorem witness_CopyAndFillExpand :
    zeroState.status.getLsbD 0 = false ∧ (0xFEFFFFFF#32).getLsbD 24 = false ∧ (0x01000000#32).getLsbD 24 = true := by
  decide

/-- V-HOST-9's fault and two of an operation, STATUS as the vectors give it: 0x11, 0x31, 0x41. -/
theorem witness_CauseCodes :
    (∃ t, writeCommand 4#32 zeroState = .next t ∧ t.faultLog = zeroState.faultLog ++ [(.illegalCommand, 4#32)] ∧
      t.status = 0x00000011#32) ∧
    (∃ t, writeCommand 2#32 wrapState = .next t ∧ t.faultLog = wrapState.faultLog ++ [(.addressWrap, 0xFFFFFFFC#32)] ∧
      t.status = 0x00000031#32) ∧
    ∃ t, writeCommand 3#32 farState = .next t ∧ t.faultLog = farState.faultLog ++ [(.busError, 0xFFFFFFFC#32)] ∧
      t.status = 0x00000041#32 :=
  ⟨⟨_, rfl, by decide, by decide⟩, ⟨_, rfl, by decide, by decide⟩, ⟨_, rfl, by decide, by decide⟩⟩
/-- A step that adds a reason beside one that stays: a read of the reserved slot after a refused write. -/
theorem witness_LogsOnlyGrow :
    (faultedState.note .hostUndefinedWrite).undef.has .hostUndefinedWrite = true ∧
    ∃ t, step (before (faultedState.note .hostUndefinedWrite) (.windowRead 32 0x1C#32)) = .next t :=
  ⟨by decide, ⟨_, rfl⟩⟩

end Sys2Proof.Tests
end

section
/-! PROOFS. The register window as the host reaches it (10_state.md R21-R30): a step that runs a window access, one
equation per way the access can go, and the statements about reads, writes and refusals. -/

namespace Sys2Proof.Machine

open Sys2Proof.Spec

/-! ## The statement a step takes -/

/-- The state a statement acts on is the one before with that statement taken from the list, and no other change. -/
theorem next_iff {s u : State} {st : HostStmt} :
    Next s st u ↔ ∃ rest, s.pending = st :: rest ∧ u = { s with pending := rest } := by
  constructor
  · rintro ⟨hs, hu⟩
    exact ⟨u.pending, hs, hu⟩
  · rintro ⟨rest, hs, rfl⟩
    exact ⟨hs, rfl⟩

theorem step_of_next {s u : State} {st : HostStmt} (h : Next s st u) : step s = runStatement st u := by
  obtain ⟨rest, hs, rfl⟩ := next_iff.mp h
  exact step_pending hs

/-! ## The offsets of the window (R21, R29) -/

@[simp] theorem windowRegister_offset (w : WindowReg) : windowRegister w.offset = some w := by
  cases w <;> rfl

theorem offset_of_windowRegister {offset : Word} {w : WindowReg} (h : windowRegister offset = some w) :
    offset = w.offset := by
  unfold windowRegister at h
  split_ifs at h with h0 h1 h2 h3 h4 h5 h6 <;> cases h <;> assumption

theorem not_refusedOffset_offset (w : WindowReg) : ¬RefusedOffset w.offset := by
  cases w <;> decide

theorem windowRegister_refused {offset : Word} (h : RefusedOffset offset) : windowRegister offset = none := by
  cases hw : windowRegister offset with
  | none => rfl
  | some w =>
    obtain rfl := offset_of_windowRegister hw
    exact absurd h (not_refusedOffset_offset w)

/-! ## Reads and writes of the window -/

@[simp] theorem readWindow_offset (w : WindowReg) (s : State) : readWindow 32 w.offset s = readRegister w s := by
  simp [readWindow]

@[simp] theorem writeWindow_offset (w : WindowReg) (v : Word) (s : State) :
    writeWindow 32 w.offset v s = writeRegister w v s := by
  simp [writeWindow]

theorem readWindow_refused {width : Nat} {offset : Word} (h : width ≠ 32 ∨ RefusedOffset offset) (s : State) :
    readWindow width offset s = refuseRead s := by
  unfold readWindow
  rcases h with hwidth | hoffset
  · rw [if_neg hwidth]
  · simp [windowRegister_refused hoffset]

theorem writeWindow_refused {width : Nat} {offset : Word} (h : width ≠ 32 ∨ RefusedOffset offset) (v : Word)
    (s : State) : writeWindow width offset v s = .next (refuseWrite s) := by
  unfold writeWindow
  rcases h with hwidth | hoffset
  · rw [if_neg hwidth]
  · simp [windowRegister_refused hoffset]

theorem readValid_of_some {r : Reg} {v : Word} (h : r.get? = some v) (s : State) :
    readValid r s = s.reply (some v) := by
  simp [readValid, h]

theorem readValid_of_none {r : Reg} (h : r.get? = none) (s : State) : readValid r s = refuseRead s := by
  simp [readValid, h]

/-! ## The step of a window access -/

theorem step_readRegister (w : WindowReg) {s u : State} (h : Next s (.windowRead 32 w.offset) u) :
    step s = .next (readRegister w u) :=
  (step_of_next h).trans (congrArg Host.Outcome.next (readWindow_offset w u))

theorem step_writeRegister (w : WindowReg) {s u : State} {v : Word} (h : Next s (.windowWrite 32 w.offset v) u) :
    step s = writeRegister w v u :=
  (step_of_next h).trans (writeWindow_offset w v u)

/-- Where a window register is read through a validity flag, the flag decides what the step does (R24, R25). -/
theorem step_readValid (w : WindowReg) {s u : State} {r : Reg} (h : Next s (.windowRead 32 w.offset) u)
    (hr : readRegister w u = readValid r u) :
    (∀ v, r.get? = some v → step s = .next (u.reply (some v))) ∧ (r.get? = none → step s = .next (refuseRead u)) := by
  have hstep : step s = .next (readValid r u) := hr ▸ step_readRegister w h
  exact ⟨fun v hv => readValid_of_some hv u ▸ hstep, fun hn => readValid_of_none hn u ▸ hstep⟩

end Sys2Proof.Machine

namespace Sys2Proof.Proofs

open Sys2Proof.Machine Sys2Proof.Spec

/-- Settles O34: at the offset of each register the step is `readRegister` of it, and a validity flag decides the read
of an argument or of RESULT. -/
theorem registerReads : Obligations.RegisterReads := by
  intro s u offset r h
  obtain ⟨rest, -, rfl⟩ := next_iff.mp h
  refine ⟨?_, ?_, ?_, ?_⟩
  · rintro (⟨rfl, rfl⟩ | ⟨rfl, rfl⟩ | ⟨rfl, rfl⟩ | ⟨rfl, rfl⟩)
    · exact step_readValid .arg0 h rfl
    · exact step_readValid .arg1 h rfl
    · exact step_readValid .arg2 h rfl
    · exact step_readValid .result h rfl
  · rintro rfl
    exact step_readRegister .cmd h
  · rintro rfl
    exact step_readRegister .status h
  · rintro rfl
    exact step_readRegister .faddr h

/-- Settles O35: at the offset of each register but CMD the step is `writeRegister` of it, which looks at no other
register. -/
theorem registerWrites : Obligations.RegisterWrites := by
  intro s u offset v h
  refine ⟨?_, ?_, ?_, ?_⟩
  · rintro rfl
    exact step_writeRegister .arg0 h
  · rintro rfl
    exact step_writeRegister .arg1 h
  · rintro rfl
    exact step_writeRegister .arg2 h
  · rintro (rfl | rfl | rfl)
    · exact step_writeRegister .result h
    · exact step_writeRegister .status h
    · exact step_writeRegister .faddr h

/-- Settles O36: no register stands at a refused offset, and another width looks for none. -/
theorem windowRefusals : Obligations.WindowRefusals := by
  intro s u width offset v hbad
  constructor
  · intro h
    obtain ⟨rest, -, rfl⟩ := next_iff.mp h
    exact (step_of_next h).trans (congrArg Host.Outcome.next (readWindow_refused hbad _))
  · intro h
    obtain ⟨rest, -, rfl⟩ := next_iff.mp h
    exact (step_of_next h).trans (writeWindow_refused hbad v _)

end Sys2Proof.Proofs
end

section
/-! PROOFS. What the accesses of an operation reach (20_memory.md R50-R69): the bytes of aligned words, the free values a
bus error leaves there, and the ways an operation on valid operands ends, with its accesses and its memory. -/

namespace Sys2Proof.Machine

open Sys2Proof.Spec

/-! ## The bytes of words (R50, R53, R57) -/

/-- A byte address lies in the `bytes` bytes from `base` on, the end taken as an unbounded integer (R56). -/
def InBytes (base : Word) (bytes : Nat) (x : Word) : Prop := base.toNat ≤ x.toNat ∧ x.toNat < base.toNat + bytes

theorem not_inBytes_zero (base x : Word) : ¬InBytes base 0 x := by
  unfold InBytes
  omega

theorem mem_wordBytes_iff {a x : Word} (h : a.toNat + 4 ≤ 2 ^ 32) : x ∈ wordBytes a ↔ InBytes a 4 x := by
  simp only [wordBytes, InBytes, List.mem_cons, List.not_mem_nil, or_false, ← BitVec.toNat_inj, BitVec.toNat_add,
    BitVec.toNat_ofNat]
  omega

/-- The words of a range that ends at or below 2^32 hold its bytes and no other. -/
theorem exists_mem_wordBytes_iff {base x : Word} {count : Nat} (h : base.toNat + 4 * count ≤ 2 ^ 32) :
    (∃ k < count, x ∈ wordBytes (wordAddress base k)) ↔ InBytes base (4 * count) x := by
  have word : ∀ k < count,
      (x ∈ wordBytes (wordAddress base k) ↔ base.toNat + 4 * k ≤ x.toNat ∧ x.toNat < base.toNat + 4 * k + 4) := by
    intro k hk
    have hw : (wordAddress base k).toNat = base.toNat + 4 * k := wordAddress_toNat (by omega)
    rw [mem_wordBytes_iff (by omega), InBytes, hw]
  constructor
  · rintro ⟨k, hk, hx⟩
    rw [word k hk] at hx
    unfold InBytes
    omega
  · rintro ⟨hlow, hhigh⟩
    have hk : (x.toNat - base.toNat) / 4 < count := by omega
    exact ⟨_, hk, (word _ hk).2 (by omega)⟩

/-! ## Aligned addresses (R52, R55) -/

theorem aligned_of_not_isMisaligned {a : Word} (h : ¬isMisaligned a = true) : a.toNat % 4 = 0 := by
  rwa [isMisaligned_iff, not_not] at h

theorem inRange_of_not_rangeWraps {base : Word} {bytes : Nat} (h : ¬rangeWraps base bytes = true) :
    base.toNat + bytes ≤ 2 ^ 32 := by
  rwa [rangeWraps_iff, Nat.not_lt] at h

theorem aligned_wordAddress {base : Word} (h : base.toNat % 4 = 0) (k : Nat) :
    (wordAddress base k).toNat % 4 = 0 := by
  rw [wordAddress_eq, BitVec.toNat_add, BitVec.toNat_ofNat]
  omega

theorem aligned_tableAddress {sb offset : Word} (hsb : sb.toNat % 4 = 0) (hoffset : offset.toNat % 4 = 0)
    (index : Byte) : (tableAddress sb offset index).toNat % 4 = 0 := by
  rw [tableAddress_eq, BitVec.toNat_add, BitVec.toNat_ofNat]
  omega

theorem aligned_sourceAddress {src : Word} (h : src.toNat % 4 = 0) (mode : MoveMode) (k : Nat) :
    (sourceAddress mode src k).toNat % 4 = 0 := by
  cases mode with
  | copy => exact aligned_wordAddress h k
  | fill => exact h

/-- Every access of a list is at a multiple of 4 (R52). -/
def AllAligned (xs : List Access) : Prop := ∀ x ∈ xs, x.address.toNat % 4 = 0

@[simp] theorem allAligned_nil : AllAligned [] := by simp [AllAligned]

@[simp] theorem allAligned_cons (x : Access) (xs : List Access) :
    AllAligned (x :: xs) ↔ x.address.toNat % 4 = 0 ∧ AllAligned xs := by
  simp [AllAligned]

@[simp] theorem allAligned_append (xs ys : List Access) :
    AllAligned (xs ++ ys) ↔ AllAligned xs ∧ AllAligned ys := by
  simp only [AllAligned, List.forall_mem_append]

@[simp] theorem Access.address_read (a : Word) : (Access.read a).address = a := rfl

@[simp] theorem Access.address_write (a : Word) : (Access.write a).address = a := rfl

theorem feistelReads_aligned {sb : Word} (h : sb.toNat % 4 = 0) (w : Word) : AllAligned (feistelReads sb w) := by
  simp [feistelReads, addressA, addressB, addressC, addressD, aligned_tableAddress h, offsetSA, offsetSB, offsetSC,
    offsetSD]

theorem flightReads_aligned {sb : Word} (h : sb.toNat % 4 = 0) (m : Memory) (i : Nat) (left : Word) :
    AllAligned (flightReads m sb i left) := by
  simp [flightReads, aligned_wordAddress h, feistelReads_aligned h]

theorem flightsReads_aligned {sb : Word} (h : sb.toNat % 4 = 0) (m : Memory) (n : Nat) (left right : Word) :
    AllAligned (flightsReads m sb n left right) := by
  induction n generalizing left right with
  | zero => exact flightReads_aligned h m 2 left
  | succ n ih => exact (allAligned_append _ _).2 ⟨flightReads_aligned h m (n + 3) left, ih _ _⟩

theorem wordAddress_zero (base : Word) : wordAddress base 0 = base := by simp [wordAddress_eq]

theorem add32_four (base : Word) : add32 base 4#32 = wordAddress base 1 := by simp [wordAddress_eq, add32]

theorem decryptBlockAccesses_aligned {sb ba : Word} (hsb : sb.toNat % 4 = 0) (hba : ba.toNat % 4 = 0) (m : Memory) :
    AllAligned (decryptBlockAccesses m sb ba) := by
  simp [decryptBlockAccesses, add32_four, flightsReads_aligned hsb, aligned_wordAddress hsb, aligned_wordAddress hba,
    hba]

theorem moveWordsAccesses_aligned {src dst : Word} (hsrc : src.toNat % 4 = 0) (hdst : dst.toNat % 4 = 0)
    (mode : MoveMode) (n k : Nat) : AllAligned (moveWordsAccesses mode src dst n k) := by
  induction n generalizing k with
  | zero => exact allAligned_nil
  | succ n ih => simp [moveWordsAccesses, aligned_sourceAddress hsrc, aligned_wordAddress hdst, ih]

/-! ## The free values of a bus error (R69) -/

/-- Mapped is a property of the aligned word (R51, R58). -/
theorem mapped_congr (p : Platform) {a b : Word} (h : wordBase a = wordBase b) : p.mapped a = p.mapped b := by
  simp only [Platform.mapped, Platform.inWindow, Region.covers, h]

theorem wordBase_of_mem_wordBytes {a x : Word} (ha : a.toNat % 4 = 0) (hx : x ∈ wordBytes a) :
    wordBase x = wordBase a := by
  have hlt := a.isLt
  rw [mem_wordBytes_iff (by omega), InBytes] at hx
  unfold wordBase
  omega

theorem read_drawWord_inside (m : Memory) (draw : Nat) {a x : Word} (h : x ∈ wordBytes a) :
    (m.drawWord draw a).read x = Config.freeByte draw x.toNat := by
  simp only [wordBytes, List.mem_cons, List.not_mem_nil, or_false] at h
  rcases h with rfl | rfl | rfl | rfl <;> simp [Memory.drawWord, Memory.read_write]

/-- Every byte of a Mapped destination word holds its free value of the draw, whichever words share the draw. -/
theorem read_drawWords_inside (p : Platform) (draw : Nat) (base : Word) (count : Nat) (m : Memory) {k : Nat} {x : Word}
    (hk : k < count) (hx : x ∈ wordBytes (wordAddress base k)) (hp : p.mapped (wordAddress base k) = true) :
    (drawWords p draw base count m).read x = Config.freeByte draw x.toNat := by
  induction count with
  | zero => omega
  | succ n ih =>
    simp only [drawWords]
    by_cases hn : p.mapped (wordAddress base n) = true ∧ x ∈ wordBytes (wordAddress base n)
    · rw [if_pos hn.1, read_drawWord_inside _ _ hn.2]
    · have hkn : k < n := by
        rcases Nat.lt_succ_iff_lt_or_eq.1 hk with h | rfl
        · exact h
        · exact absurd ⟨hp, hx⟩ hn
      split
      · rename_i hmapped
        rw [read_drawWord_outside _ _ _ _ fun hmem => hn ⟨hmapped, hmem⟩, ih hkn]
      · exact ih hkn

/-- BUS_ERROR leaves every byte outside the destination range as it was (R69). -/
theorem State.unspecify_read_outside {s : State} {base x : Word} {count : Nat}
    (hrange : base.toNat + 4 * count ≤ 2 ^ 32) (hx : ¬InBytes base (4 * count) x) :
    (s.unspecify base count).mem.read x = s.mem.read x :=
  read_drawWords_outside _ _ _ _ _ _ fun k hk hmem => hx ((exists_mem_wordBytes_iff hrange).1 ⟨k, hk, hmem⟩)

/-- BUS_ERROR leaves every Mapped byte of the destination range with its free value (R69). -/
theorem State.unspecify_read_inside {s : State} {base x : Word} {count : Nat} (hbase : base.toNat % 4 = 0)
    (hrange : base.toNat + 4 * count ≤ 2 ^ 32) (hx : InBytes base (4 * count) x)
    (hmapped : s.platform.mapped x = true) :
    (s.unspecify base count).mem.read x = Config.freeByte s.draws x.toNat := by
  obtain ⟨k, hk, hmem⟩ := (exists_mem_wordBytes_iff hrange).2 hx
  have hword : s.platform.mapped (wordAddress base k) = true :=
    mapped_congr s.platform (wordBase_of_mem_wordBytes (aligned_wordAddress hbase k) hmem) ▸ hmapped
  exact read_drawWords_inside _ _ _ _ _ hk hmem hword

/-! ## How an operation on valid operands ends -/

/-- From `s` to `t` the trace gained aligned accesses of Mapped words and no other (R51, R52). -/
def AccessesMade (s t : State) : Prop :=
  ∃ made, t.trace = s.trace ++ made ∧ ∀ x ∈ made, x.address.toNat % 4 = 0 ∧ s.platform.mapped x.address = true

theorem AccessesMade.of_trace_eq {s t : State} (h : t.trace = s.trace) : AccessesMade s t :=
  ⟨[], by simp [h], by simp⟩

/-- What a part of an operation leaves alone wherever it stops, and the accesses it makes, where every access it can make
is aligned. -/
theorem Ran.Follows.state_frame {α : Type} {r : Ran α} {s : State} {xs : List Access} {v : α} {m : Memory}
    (h : r.Follows s xs v m) (hxs : AllAligned xs) :
    AccessesMade s r.state ∧ r.state.faultLog = s.faultLog ∧ r.state.platform = s.platform ∧
      r.state.draws = s.draws := by
  obtain ⟨made, later, n, rfl, hr, hmapped⟩ := h.made
  rw [hr]
  exact ⟨⟨made, rfl, fun x hx => ⟨hxs x (List.mem_append_left _ hx), hmapped x hx⟩⟩, rfl, rfl, rfl⟩

/-- The ways an operation on valid operands ends, its destination the `bytes` bytes from `dst` on: at a check, in the
model fault of overlapping ranges, completed, or at a bus error (R69, R205, R211). -/
inductive OperationEnd (s : State) (dst : Word) (bytes : Nat) : State → Prop
  | checkFailed (c : Cause) (info : Word) (hc : c ≠ .busError) : OperationEnd s dst bytes (s.raise c info)
  | overlapped : OperationEnd s dst bytes (s.undefine .precondition)
  | completed (t : State) (hmade : AccessesMade s t) (hlog : t.faultLog = s.faultLog) : OperationEnd s dst bytes t
  | busError (t : State) (a : Word) (hmade : AccessesMade s t) (hlog : t.faultLog = s.faultLog ++ [(.busError, a)])
      (houtside : ∀ x, ¬InBytes dst bytes x → t.mem.read x = s.mem.read x)
      (hinside : ∀ x, InBytes dst bytes x → s.platform.mapped x = true →
        t.mem.read x = Config.freeByte s.draws x.toNat) : OperationEnd s dst bytes t

theorem roundOn_operationEnd (sb w : Word) (s : State) : OperationEnd s w 0 (roundOn sb w s) := by
  unfold roundOn
  split_ifs with hmis
  · exact .checkFailed _ _ (by decide)
  · exact .checkFailed _ _ (by decide)
  · have hsb := aligned_of_not_isMisaligned hmis
    obtain ⟨hmade, hlog, -, -⟩ := (feistel_follows sb w s).state_frame (feistelReads_aligned hsb w)
    have hmem := feistel_state_mem sb w s
    split <;> rename_i heq <;> rw [heq] at hmade hlog hmem
    · exact .completed _ hmade hlog
    · refine .busError _ _ hmade (congrArg (· ++ _) hlog) (fun x _ => congrArg (·.read x) hmem) fun x hx => ?_
      exact absurd hx (not_inBytes_zero w x)

/-- A part of an operation that leaves every byte outside the destination range alone and stops at a bus error ends the
operation as R69 says. -/
theorem Ran.Follows.bus_operationEnd {α : Type} {r : Ran α} {s t : State} {xs : List Access} {v : α} {m : Memory}
    {dst a : Word} {count : Nat} (h : r.Follows s xs v m) (hxs : AllAligned xs) (hdst : dst.toNat % 4 = 0)
    (hrange : dst.toNat + 4 * count ≤ 2 ^ 32) (hkeeps : ∀ x, ¬InBytes dst (4 * count) x → r.Keeps s x)
    (hr : r = .bus a t) : OperationEnd s dst (4 * count) ((t.unspecify dst count).raise .busError a) := by
  subst hr
  obtain ⟨hmade, hlog, hplatform, hdraws⟩ := h.state_frame hxs
  refine .busError _ a hmade (congrArg (· ++ _) hlog) (fun x hx => ?_) fun x hx hmapped => ?_
  · exact (State.unspecify_read_outside hrange hx).trans (hkeeps x hx)
  · exact (State.unspecify_read_inside hdst hrange hx (hplatform ▸ hmapped)).trans (by rw [← hdraws]; rfl)

theorem Ran.Follows.done_operationEnd {α : Type} {r : Ran α} {s t : State} {xs : List Access} {u v : α} {m : Memory}
    {dst : Word} {bytes : Nat} (h : r.Follows s xs v m) (hxs : AllAligned xs) (hr : r = .done u t) :
    OperationEnd s dst bytes t.complete := by
  subst hr
  obtain ⟨hmade, hlog, -, -⟩ := h.state_frame hxs
  exact .completed _ hmade hlog

theorem dec64On_operationEnd (sb ba : Word) (s : State) : OperationEnd s ba 8 (dec64On sb ba s) := by
  unfold dec64On
  split_ifs with hmisSb hmisBa _ hwrap
  · exact .checkFailed _ _ (by decide)
  · exact .checkFailed _ _ (by decide)
  · exact .checkFailed _ _ (by decide)
  · exact .checkFailed _ _ (by decide)
  · exact .overlapped
  · have hba := aligned_of_not_isMisaligned hmisBa
    have hrange : ba.toNat + 4 * 2 ≤ 2 ^ 32 := inRange_of_not_rangeWraps hwrap
    have hfollows := decryptBlock_follows sb ba s
    have hxs := decryptBlockAccesses_aligned (aligned_of_not_isMisaligned hmisSb) hba s.mem
    have hkeeps : ∀ x, ¬InBytes ba (4 * 2) x → (decryptBlock sb ba s).Keeps s x := by
      intro x hx
      have hout : ∀ k < 2, x ∉ wordBytes (wordAddress ba k) := fun k hk hmem =>
        hx ((exists_mem_wordBytes_iff hrange).1 ⟨k, hk, hmem⟩)
      exact decryptBlock_keeps s (wordAddress_zero ba ▸ hout 0 (by decide)) (add32_four ba ▸ hout 1 (by decide))
    split <;> rename_i heq
    · exact hfollows.done_operationEnd hxs heq
    · exact hfollows.bus_operationEnd hxs hba hrange hkeeps heq

theorem moveOn_operationEnd (mode : MoveMode) (src dst : Word) (count : Nat) (s : State) :
    OperationEnd s dst (4 * count) (moveOn mode src dst count s) := by
  unfold moveOn
  split_ifs with hmisSrc hmisDst _ _ hwrap
  · exact .checkFailed _ _ (by decide)
  · exact .checkFailed _ _ (by decide)
  · exact .completed _ (.of_trace_eq rfl) rfl
  · exact .checkFailed _ _ (by decide)
  · exact .checkFailed _ _ (by decide)
  · exact .overlapped
  · have hdst := aligned_of_not_isMisaligned hmisDst
    have hrange := inRange_of_not_rangeWraps hwrap
    have hfollows := moveWords_follows mode src dst count 0 s
    have hxs := moveWordsAccesses_aligned (aligned_of_not_isMisaligned hmisSrc) hdst mode count 0
    have hkeeps : ∀ x, ¬InBytes dst (4 * count) x → (moveWords mode src dst count 0 s).Keeps s x := fun x hx =>
      moveWords_keeps mode src dst count 0 s x fun k _ hk hmem =>
        hx ((exists_mem_wordBytes_iff hrange).1 ⟨k, by omega, hmem⟩)
    split <;> rename_i heq
    · exact hfollows.done_operationEnd hxs heq
    · exact hfollows.bus_operationEnd hxs hdst hrange hkeeps heq

/-! ## How a command ends -/

theorem destinationBytes_of_moveForm {i : Instr} {s : State} {mode : MoveMode} {count : Nat}
    (h : moveForm i s = some (mode, count)) : destinationBytes i s = 4 * count := by
  cases i with
  | round => cases h
  | dec64 => cases h
  | move => simp [destinationBytes, h]
  | moveCopy n => cases h; rfl
  | moveFill n => cases h; rfl

/-- With ARG0 and ARG1 valid, MOVE in each of its forms is `moveOn` of its mode and COUNT (R160). -/
theorem exec_of_moveForm {i : Instr} {s : State} {src dst : Word} {mode : MoveMode} {count : Nat}
    (hsrc : s.arg0.get? = some src) (hdst : s.arg1.get? = some dst) (h : moveForm i s = some (mode, count)) :
    exec i s = .next (moveOn mode src dst count s) := by
  cases i with
  | round => cases h
  | dec64 => cases h
  | move =>
    obtain ⟨ctrl, hctrl, hform⟩ := Option.map_eq_some_iff.1 h
    unfold controlForm at hform
    simp only [exec, execMove, execMoveFill, execMoveCopy, hctrl, hsrc, hdst, controlFill]
    split_ifs at hform ⊢ <;> cases hform <;> rfl
  | moveCopy n => cases h; simp [exec, execMoveCopy, hsrc, hdst]
  | moveFill n => cases h; simp [exec, execMoveFill, hsrc, hdst]

theorem operandPair_eq_some {i : Instr} {s : State} {x y : Word} (h : operandPair i s = some (x, y)) :
    s.arg0.get? = some x ∧ s.arg1.get? = some y ∧ (i = .move → s.arg2.get? ≠ none) := by
  unfold operandPair at h
  split at h
  · rename_i hx hy
    split_ifs at h with hmove
    cases h
    exact ⟨hx, hy, fun hi harg => hmove ⟨hi, harg⟩⟩
  · cases h

/-- A command that reads an invalid register ends in UNDEFINED_OPERAND (R206). -/
theorem exec_of_operandPair_none {i : Instr} {s : State} (h : operandPair i s = none) :
    exec i s = .next (s.undefine .undefinedOperand) := by
  unfold operandPair at h
  split at h
  · split_ifs at h with hmove
    obtain ⟨rfl, harg⟩ := hmove
    simp [exec, execMove, harg]
  · rename_i hinvalid -- ARG0 and ARG1 are not both valid, so each command's match on them takes its last arm
    cases i with
    | round => simp only [exec, execRound]
    | dec64 => simp only [exec, execDec64]
    | move =>
      simp only [exec, execMove, execMoveFill, execMoveCopy, ite_self]
      split <;> rfl
    | moveCopy count => simp only [exec, execMoveCopy]
    | moveFill count => simp only [exec, execMoveFill]

/-- Every command ends undefined by an invalid operand, or as an operation on the destination range in ARG1. -/
theorem exec_operationEnd {i : Instr} {s t : State} (h : exec i s = .next t) :
    t = s.undefine .undefinedOperand ∨
      ∃ dst, s.arg1.get? = some dst ∧ OperationEnd s dst (destinationBytes i s) t := by
  cases ho : operandPair i s with
  | none => exact .inl (Host.Outcome.next.inj (h.symm.trans (exec_of_operandPair_none ho)))
  | some o =>
    obtain ⟨x, y⟩ := o
    obtain ⟨hx, hy, hctrl⟩ := operandPair_eq_some ho
    refine .inr ⟨y, hy, ?_⟩
    have ofForm : ∀ f, moveForm i s = some f → OperationEnd s y (destinationBytes i s) t := by
      rintro ⟨mode, count⟩ hform
      rw [destinationBytes_of_moveForm hform]
      exact Host.Outcome.next.inj ((exec_of_moveForm hx hy hform).symm.trans h) ▸ moveOn_operationEnd mode x y count s
    cases i with
    | round =>
      have hrun : exec .round s = .next (roundOn x y s) := by simp [exec, execRound, hx, hy]
      exact Host.Outcome.next.inj (hrun.symm.trans h) ▸ roundOn_operationEnd x y s
    | dec64 =>
      have hrun : exec .dec64 s = .next (dec64On x y s) := by simp [exec, execDec64, hx, hy]
      exact Host.Outcome.next.inj (hrun.symm.trans h) ▸ dec64On_operationEnd x y s
    | move =>
      obtain ⟨ctrl, harg⟩ := Option.ne_none_iff_exists'.1 (hctrl rfl)
      exact ofForm (controlForm ctrl) (by simp [moveForm, harg])
    | moveCopy count => exact ofForm _ rfl
    | moveFill count => exact ofForm _ rfl

theorem OperationEnd.accessesMade {s t : State} {dst : Word} {bytes : Nat} (h : OperationEnd s dst bytes t) :
    AccessesMade s t := by
  cases h with
  | checkFailed c info hc => exact .of_trace_eq rfl
  | overlapped => exact .of_trace_eq rfl
  | completed t hmade hlog => exact hmade
  | busError t a hmade hlog houtside hinside => exact hmade

/-- What a recorded block fault leaves in memory, the destination the `bytes` bytes from `dst` on (R69). -/
def FaultMemory (s t : State) (dst : Word) (bytes : Nat) (cause : Cause) : Prop :=
  (cause ≠ .busError → t.mem = s.mem) ∧
  (cause = .busError → ∀ x,
    (¬InBytes dst bytes x → t.mem.read x = s.mem.read x) ∧
    (InBytes dst bytes x → s.platform.mapped x = true → t.mem.read x = Config.freeByte s.draws x.toNat))

/-- The entry that FAULTLOG gained tells the cause. -/
theorem cause_of_append {log : List (Cause × Word)} {c c' : Cause} {info info' : Word}
    (h : log ++ [(c, info)] = log ++ [(c', info')]) : c = c' := by
  simp only [List.append_cancel_left_eq, List.cons.injEq, Prod.mk.injEq] at h
  exact h.1.1

theorem OperationEnd.faultMemory {s t : State} {dst : Word} {bytes : Nat} {cause : Cause} {info : Word}
    (h : OperationEnd s dst bytes t) (hfault : t.faultLog = s.faultLog ++ [(cause, info)]) :
    FaultMemory s t dst bytes cause := by
  cases h with
  | checkFailed c info' hc =>
    obtain rfl := cause_of_append hfault
    exact ⟨fun _ => rfl, fun hbus => absurd hbus hc⟩
  | overlapped => simp at hfault
  | completed t hmade hlog => simp [hlog] at hfault
  | busError t a hmade hlog houtside hinside =>
    obtain rfl := cause_of_append (hlog.symm.trans hfault)
    exact ⟨fun hne => absurd rfl hne, fun _ x => ⟨houtside x, hinside x⟩⟩

theorem inDestination_iff {i : Instr} {s : State} {dst x : Word} (h : s.arg1.get? = some dst) :
    InDestination i s x ↔ InBytes dst (destinationBytes i s) x := by
  simp [InDestination, InBytes, h]

end Sys2Proof.Machine

namespace Sys2Proof.Proofs

open Sys2Proof.Machine Sys2Proof.Spec

/-- Settles O32: the accesses a part of an operation makes are a first stretch of its access list, which is aligned once
the alignment checks have passed. -/
theorem everyAccessIsAlignedAndMapped : Obligations.EveryAccessIsAlignedAndMapped := by
  intro i s t h
  rcases exec_operationEnd h with rfl | ⟨dst, -, hend⟩
  · exact AccessesMade.of_trace_eq rfl
  · exact hend.accessesMade

/-- Settles O26: only a bus error comes after a write, and its free values cover every word the operation can write. -/
theorem memoryAfterABlockFault : Obligations.MemoryAfterABlockFault := by
  intro c s t cause info h hfault
  cases writeCommand_inv h with
  | ignored _ => simp at hfault
  | illegal _ hc =>
    obtain rfl := cause_of_append hfault
    exact ⟨fun _ => rfl, fun hbus => nomatch hbus⟩
  | ran i t _ hc hi _ =>
    rcases exec_operationEnd hi with rfl | ⟨dst, hdst, hend⟩
    · simp at hfault
    · obtain ⟨hother, hbus⟩ := hend.faultMemory hfault
      refine ⟨hother, fun hcause j x hj => ?_⟩
      obtain rfl := Decoded.command.inj (hc.symm.trans hj)
      rw [inDestination_iff hdst]
      exact hbus hcause x

end Sys2Proof.Proofs
end

section
/-! PROOFS. The encodings of 30_encoding.md: the fields of a control word bit by bit (R82), the write of a command word
to CMD (R26, R81), and the runs of the assembly statements (R87-R89). -/

namespace Sys2Proof

/-! ## The fields of a control word (R82) -/

theorem countFits_iff {n : Word} : countFits n = true ↔ n.getLsbD 24 = false := by
  rw [countFits, Bool.not_eq_true']

/-- FILL's bit in a control word. -/
theorem getLsbD_fillBit {i : Nat} (h : i < 32) : (0x01000000#32).getLsbD i = decide (i = 24) :=
  (by decide : ∀ i < 32, (0x01000000#32).getLsbD i = decide (i = 24)) i h

/-- The mask of COUNT has every bit but FILL's. -/
theorem getLsbD_countMask {i : Nat} (h : i < 32) : (0xFEFFFFFF#32).getLsbD i = !decide (i = 24) :=
  (by decide : ∀ i < 32, (0xFEFFFFFF#32).getLsbD i = !decide (i = 24)) i h

theorem getLsbD_controlCount (ctrl : Word) {i : Nat} (h : i < 32) :
    (controlCount ctrl).getLsbD i = (ctrl.getLsbD i && !decide (i = 24)) := by
  rw [controlCount, BitVec.getLsbD_and, getLsbD_countMask h]

theorem controlCount_eq_append (ctrl : Word) :
    controlCount ctrl = (ctrl.extractLsb' 25 7 ++ 0#1 ++ ctrl.extractLsb' 0 24 : BitVec (7 + 1 + 24)) := by
  refine BitVec.eq_of_getLsbD_eq (w := 7 + 1 + 24) fun i hi => ?_
  rw [getLsbD_controlCount ctrl hi, BitVec.getLsbD_append, BitVec.getLsbD_append]
  rcases lt_trichotomy i 24 with hlow | rfl | hhigh
  · simp [hlow, hlow.ne]
  · simp
  · have hidx : 25 + (i - 24 - 1) = i := by omega
    simp [hhigh.ne', hidx, show ¬i < 24 by omega, show ¬i - 24 < 1 by omega, show i - 24 - 1 < 7 by omega]

theorem toNat_controlCount_le (ctrl : Word) : (controlCount ctrl).toNat ≤ 0xFEFFFFFF := by
  rw [controlCount, BitVec.toNat_and]
  exact Nat.and_le_right

/-- A COUNT without bit 24 is itself the control word of a copy. -/
theorem controlCount_of_bit24_clear {n : Word} (h : n.getLsbD 24 = false) : controlCount n = n := by
  refine BitVec.eq_of_getLsbD_eq fun i hi => ?_
  rw [getLsbD_controlCount n hi]
  rcases eq_or_ne i 24 with rfl | hne
  · rw [h, Bool.false_and]
  · simp [hne]

/-- Setting FILL does not reach COUNT. -/
theorem controlCount_or_fillBit (n : Word) : controlCount (n ||| 0x01000000#32) = controlCount n := by
  refine BitVec.eq_of_getLsbD_eq fun i hi => ?_
  rw [getLsbD_controlCount _ hi, getLsbD_controlCount _ hi, BitVec.getLsbD_or, getLsbD_fillBit hi]
  cases decide (i = 24) <;> simp

theorem decodeControl_of_fill {ctrl : Word} (h : ctrl.getLsbD 24 = true) :
    decodeControl ctrl = .moveFill (controlCount ctrl) := if_pos h

theorem decodeControl_of_copy {ctrl : Word} (h : ctrl.getLsbD 24 = false) :
    decodeControl ctrl = .moveCopy (controlCount ctrl) := if_neg (ne_true_of_eq_false h)

theorem decodeControl_copyWord {n : Word} (h : n.getLsbD 24 = false) : decodeControl n = .moveCopy n := by
  rw [decodeControl_of_copy h, controlCount_of_bit24_clear h]

theorem decodeControl_fillWord {n : Word} (h : n.getLsbD 24 = false) :
    decodeControl (n ||| 0x01000000#32) = .moveFill n := by
  rw [decodeControl_of_fill (by simp), controlCount_or_fillBit, controlCount_of_bit24_clear h]

/-- The command word of MOVE beside a control word decodes to the control word's mode (R81, R82, R160). -/
theorem decode_moveWord (ctrl : Word) : decode ⟨0x00000003#32, some ctrl⟩ = .command (decodeControl ctrl) := rfl

end Sys2Proof

namespace Sys2Proof.Machine

/-! ## Running the assembly statements (R87, R88) -/

/-- MOVE runs the command its control word decodes to (R160). -/
theorem exec_move_of_control {s : State} {ctrl : Word} (h : s.arg2.get? = some ctrl) :
    exec .move s = exec (decodeControl ctrl) s := by
  simp only [exec, execMove, h, decodeControl]
  split <;> rfl

theorem writeCommand_of_command {c : Word} {i : Instr} {s : State} (h : s.status.getLsbD 0 = false)
    (hc : decodeCommand c = .command i) : writeCommand c s = exec i s := by
  simp only [writeCommand, statusFault, h, hc, Bool.false_eq_true, if_false]

theorem run_asmWr {k : Nat} {w : WindowReg} {v : Word} {s t : State} {rest : List HostStmt}
    (h : writeRegister w v { s with pending := rest } = .next t) :
    core.run (k + 1) { s with pending := asmWr w v :: rest } = core.run k t :=
  run_next ((step_writeRegister w ⟨rfl, rfl⟩).trans h)

theorem run_asmWr_args (k : Nat) (x y : Word) (s : State) (rest : List HostStmt) :
    core.run (k + 2) { s with pending := asmWr .arg0 x :: asmWr .arg1 y :: rest } =
      core.run k { s with arg0 := Reg.written x, arg1 := Reg.written y, pending := rest } :=
  (run_asmWr rfl).trans (run_asmWr (s := { s with arg0 := Reg.written x }) rfl)

/-- The write of a command word to CMD, run with STATUS.FAULT = 0, runs the command (R26). -/
theorem run_asmWr_cmd {c : Word} {i : Instr} {s : State} (h : s.status.getLsbD 0 = false)
    (hc : decodeCommand c = .command i) (rest : List HostStmt) :
    core.run 1 { s with pending := asmWr .cmd c :: rest } = exec i { s with pending := rest } :=
  (run_one _).trans <| (step_writeRegister .cmd ⟨rfl, rfl⟩).trans (writeCommand_of_command h hc)

section
variable {s : State} (h : s.status.getLsbD 0 = false)
include h

/-- A statement of two operands writes them to ARG0 and ARG1 and runs its command on them. -/
theorem run_asmWr_args_cmd {c : Word} {i : Instr} (hc : decodeCommand c = .command i) (x y : Word)
    (rest : List HostStmt) :
    core.run 3 { s with pending := asmWr .arg0 x :: asmWr .arg1 y :: asmWr .cmd c :: rest } =
      exec i { s with arg0 := ⟨x, true⟩, arg1 := ⟨y, true⟩, pending := rest } :=
  (run_asmWr_args 1 x y s _).trans
    (run_asmWr_cmd (s := { s with arg0 := ⟨x, true⟩, arg1 := ⟨y, true⟩ }) h hc rest)

theorem run_asmRound (x y : Word) (rest : List HostStmt) :
    core.run 3 { s with pending := asmRound x y ++ rest } =
      exec .round { s with arg0 := ⟨x, true⟩, arg1 := ⟨y, true⟩, pending := rest } :=
  run_asmWr_args_cmd h rfl x y rest

theorem run_asmDec64 (x y : Word) (rest : List HostStmt) :
    core.run 3 { s with pending := asmDec64 x y ++ rest } =
      exec .dec64 { s with arg0 := ⟨x, true⟩, arg1 := ⟨y, true⟩, pending := rest } :=
  run_asmWr_args_cmd h rfl x y rest

theorem run_asmMove (x y z : Word) (rest : List HostStmt) :
    core.run 4 { s with pending := asmMove x y z ++ rest } =
      exec .move { s with arg0 := ⟨x, true⟩, arg1 := ⟨y, true⟩, arg2 := ⟨z, true⟩, pending := rest } :=
  (run_asmWr_args 2 x y s _).trans <|
    (run_asmWr (s := { s with arg0 := ⟨x, true⟩, arg1 := ⟨y, true⟩ }) rfl).trans
      (run_asmWr_cmd (s := { s with arg0 := ⟨x, true⟩, arg1 := ⟨y, true⟩, arg2 := ⟨z, true⟩ }) h rfl rest)

/-- The MOVE statement runs the command its control word decodes to. -/
theorem run_asmMove_control (x y z : Word) :
    core.run 4 { s with pending := asmMove x y z } =
      exec (decodeControl z) { s with arg0 := ⟨x, true⟩, arg1 := ⟨y, true⟩, arg2 := ⟨z, true⟩, pending := [] } :=
  (run_asmMove h x y z []).trans (exec_move_of_control rfl)

end

end Sys2Proof.Machine

namespace Sys2Proof.Proofs

open Sys2Proof.Machine

/-- Settles O3: COUNT is the control word with bit 24 cleared, and FILL is that bit. -/
theorem controlWordFields : Obligations.ControlWordFields := by
  intro ctrl
  refine ⟨controlCount_eq_append ctrl, rfl, toNat_controlCount_le ctrl, ?_, rfl, fun hfill => ?_, fun hcopy => ?_⟩
  · exact (getLsbD_controlCount ctrl (by decide)).trans (Bool.and_false _)
  · rw [decode_moveWord, decodeControl_of_fill hfill]
  · rw [decode_moveWord, decodeControl_of_copy hcopy]

/-- Settles O48: each write of an operand is a step that fills its register, and the write to CMD runs the command. -/
theorem operationStatementsExpand : Obligations.OperationStatementsExpand :=
  ⟨fun _ _ _ => ⟨rfl, rfl, rfl⟩, fun _ x y z rest h =>
    ⟨run_asmRound h x y rest, run_asmDec64 h x y rest, run_asmMove h x y z rest⟩⟩

/-- Settles O49: n is the control word of a copy of n words, and n OR 0x01000000 that of a fill, where bit 24 of n is
0. -/
theorem copyAndFillExpand : Obligations.CopyAndFillExpand := by
  intro src dst n
  constructor
  · intro hset
    have hbad : ¬countFits n = true := mt countFits_iff.mp (ne_false_of_eq_true hset)
    exact ⟨if_neg hbad, if_neg hbad⟩
  · intro hclear
    have hfits : countFits n = true := countFits_iff.mpr hclear
    refine ⟨if_pos hfits, if_pos hfits, fun s h => ⟨?_, ?_⟩⟩
    · rw [run_asmMove_control h, decodeControl_copyWord hclear]
    · rw [run_asmMove_control h, decodeControl_fillWord hclear]

end Sys2Proof.Proofs
end

section
/-! PROOFS. The round function F and ROUND (40_feistel_round.md R100-R109): the addresses of F as word indices of the
schedule, F over the words K[i], and the two ways a ROUND ends whose checks pass. -/

namespace Sys2Proof.Machine

open Sys2Proof.Spec

/-! ## The words of a range by their index (R10) -/

/-- The model's address form of word i is base + 4*i modulo 2^32 (R57, R104). -/
theorem at4_eq_wordAddress (base : Word) (i : Nat) : at4 base i = wordAddress base i := (wordAddress_eq base i).symm

theorem at4_toNat {base : Word} {i : Nat} (h : base.toNat + 4 * i < 2 ^ 32) :
    (at4 base i).toNat = base.toNat + 4 * i := by
  rw [at4_eq_wordAddress, wordAddress_toNat h]

/-- The words of a range that ends at or below 2^32 lie at different addresses. -/
theorem at4_injOn {base : Word} {count i j : Nat} (hrange : base.toNat + 4 * count ≤ 2 ^ 32) (hi : i < count)
    (hj : j < count) (h : at4 base i = at4 base j) : i = j := by
  have heq := congrArg BitVec.toNat h
  rw [at4_toNat (by omega), at4_toNat (by omega)] at heq
  omega

/-! ## The S-box indices of F (R102, R103) -/

theorem octet_lt (w : Word) (j : Nat) : octet w j < 256 := Nat.mod_lt _ (by decide)

/-- Byte j of a word is its bits 8*j + 7 down to 8*j (R102). -/
theorem toNat_extractLsb'_eq_octet (w : Word) (j : Nat) : (w.extractLsb' (8 * j) 8).toNat = octet w j := by
  rw [BitVec.extractLsb'_toNat, Nat.shiftRight_eq_div_pow, Nat.pow_mul]
  rfl

/-- Each index of F is one of an S-box word: past the P-array, inside the schedule (R34, R103). -/
theorem boxIndices_bounds {w : Word} {i : Nat} (h : i ∈ boxIndices w) : 18 ≤ i ∧ i < 1042 := by
  have h0 := octet_lt w 0
  have h1 := octet_lt w 1
  have h2 := octet_lt w 2
  have h3 := octet_lt w 3
  simp only [boxIndices, List.mem_cons, List.not_mem_nil, or_false] at h
  omega

/-- The indices of F fall one into each S-box. -/
theorem boxIndices_nodup (w : Word) : (boxIndices w).Nodup := by
  have h0 := octet_lt w 0
  have h1 := octet_lt w 1
  have h2 := octet_lt w 2
  have h3 := octet_lt w 3
  simp only [boxIndices, List.nodup_cons, List.mem_cons, List.not_mem_nil, or_false, not_or, not_false_eq_true,
    List.nodup_nil, and_true]
  omega

/-- The four reads of F are at four different addresses (R106). -/
theorem roundReads_nodup {sb : Word} (hrange : sb.toNat + 4168 ≤ 2 ^ 32) (w : Word) : (roundReads sb w).Nodup :=
  (boxIndices_nodup w).map_on fun _ hi _ hj h =>
    at4_injOn (count := 1042) hrange (boxIndices_bounds hi).2 (boxIndices_bounds hj).2 (Access.read.inj h)

/-! ## The addresses of F as words of the schedule (R103) -/

/-- Entry `index` of the S-box whose first word is K[first] is K[first + index]. -/
theorem tableAddress_eq_at4 {offset : Word} {first : Nat} (h : offset.toNat = 4 * first) (sb : Word) (index : Byte) :
    tableAddress sb offset index = at4 sb (first + index.toNat) := by
  rw [tableAddress_eq, at4, h, Nat.mul_add]

theorem addressA_eq_at4 (sb w : Word) : addressA sb w = at4 sb (786 + octet w 0) := by
  rw [← toNat_extractLsb'_eq_octet]
  exact tableAddress_eq_at4 rfl sb _

theorem addressB_eq_at4 (sb w : Word) : addressB sb w = at4 sb (530 + octet w 1) := by
  rw [← toNat_extractLsb'_eq_octet]
  exact tableAddress_eq_at4 rfl sb _

theorem addressC_eq_at4 (sb w : Word) : addressC sb w = at4 sb (274 + octet w 2) := by
  rw [← toNat_extractLsb'_eq_octet]
  exact tableAddress_eq_at4 rfl sb _

theorem addressD_eq_at4 (sb w : Word) : addressD sb w = at4 sb (18 + octet w 3) := by
  rw [← toNat_extractLsb'_eq_octet]
  exact tableAddress_eq_at4 rfl sb _

theorem feistelReads_eq_roundReads (sb w : Word) : feistelReads sb w = roundReads sb w := by
  rw [feistelReads, addressA_eq_at4, addressB_eq_at4, addressC_eq_at4, addressD_eq_at4]
  rfl

/-- The value of F over a state's memory is that of F over its schedule (R105). -/
theorem feistelValue_eq_roundF (s : State) (sb w : Word) : feistelValue s.mem sb w = roundF (schedule s sb) w := by
  rw [feistelValue, addressA_eq_at4, addressB_eq_at4, addressC_eq_at4, addressD_eq_at4]
  rfl

/-! ## The ends of F (R105, R106, R205) -/

theorem feistel_done {s : State} {sb w : Word} (h : ∀ x ∈ roundReads sb w, s.platform.mapped x.address = true) :
    feistel sb w s = .done (roundF (schedule s sb) w) (s.recordAll (roundReads sb w)) := by
  rw [← feistelReads_eq_roundReads] at h ⊢
  rw [← feistelValue_eq_roundF]
  exact (feistel_follows sb w s).1 h

/-- At the first read that is not Mapped F ends, the reads before it made and memory as it was. -/
theorem feistel_bus {s : State} {sb w a : Word} {made later : List Access}
    (hreads : roundReads sb w = made ++ .read a :: later) (hmade : ∀ x ∈ made, s.platform.mapped x.address = true)
    (ha : s.platform.mapped a = false) : feistel sb w s = .bus a (s.recordAll made) := by
  obtain ⟨m, hbus⟩ :=
    (feistel_follows sb w s).2 made (.read a) later ((feistelReads_eq_roundReads sb w).trans hreads) hmade ha
  have hmem : m = s.mem := by simpa [hbus, Ran.state] using feistel_state_mem sb w s
  rw [hbus, hmem]
  rfl

/-! ## ROUND with its checks passed (R107, R209) -/

/-- A block fault taken at a point where FAULTLOG and UNDEF are still those of `s` is recorded (R210). -/
theorem recorded_raise {s u : State} (hlog : u.faultLog = s.faultLog) (hundef : u.undef = s.undef) (c : Cause)
    (info : Word) : Recorded s (u.raise c info) c info := by
  refine ⟨?_, rfl, congrArg (· ++ _) hlog, hundef, rfl, rfl, rfl, rfl⟩
  cases c <;> rfl

section
variable {s : State} {sb w : Word} (hsb : s.arg0.get? = some sb) (hw : s.arg1.get? = some w)
  (haligned : sb.toNat % 4 = 0) (hrange : sb.toNat + 4168 ≤ 2 ^ 32)
include hsb hw haligned hrange

/-- ROUND is F, then completion with its value or BUS_ERROR at the address that ended it (R107). -/
theorem exec_round_of_feistel :
    (∀ v t, feistel sb w s = .done v t → exec .round s = .next (t.completeWith v)) ∧
    (∀ a t, feistel sb w s = .bus a t → exec .round s = .next (t.raise .busError a)) := by
  have hmis : ¬isMisaligned sb = true := by rw [isMisaligned_iff]; omega
  have hwrap : ¬rangeWraps sb scheduleBytes = true := by rw [rangeWraps_iff, scheduleBytes]; omega
  have hrun : exec .round s = .next (roundOn sb w s) := by simp [exec, execRound, hsb, hw]
  constructor
  · intro v t hf
    rw [hrun, roundOn, if_neg hmis, if_neg hwrap, hf]
  · intro a t hf
    rw [hrun, roundOn, if_neg hmis, if_neg hwrap, hf]

/-- With its four words Mapped, ROUND reads them and gives F of the schedule. -/
theorem exec_round_mapped (hmapped : ∀ x ∈ roundReads sb w, s.platform.mapped x.address = true) :
    exec .round s = .next ((s.recordAll (roundReads sb w)).completeWith (roundF (schedule s sb) w)) :=
  (exec_round_of_feistel hsb hw haligned hrange).1 _ _ (feistel_done hmapped)

/-- ROUND ends at the first of its four words that is not Mapped (R106, R205). -/
theorem exec_round_bus {a : Word} {made later : List Access} (hreads : roundReads sb w = made ++ .read a :: later)
    (hmade : ∀ x ∈ made, s.platform.mapped x.address = true) (ha : s.platform.mapped a = false) :
    exec .round s = .next ((s.recordAll made).raise .busError a) :=
  (exec_round_of_feistel hsb hw haligned hrange).2 _ _ (feistel_bus hreads hmade ha)

end

end Sys2Proof.Machine

namespace Sys2Proof.Proofs

open Sys2Proof.Machine Sys2Proof.Spec

/-- Settles O8: the model's S-box addresses are those of the words K[i] that F takes, and completing keeps all but the
registers. -/
theorem roundComputesF : Obligations.RoundComputesF := by
  intro s sb w hsb hw haligned hrange hmapped
  refine ⟨_, exec_round_mapped hsb hw haligned hrange hmapped, rfl, ?args, rfl, rfl, ?noFault, ?host⟩
  case args => exact ⟨rfl, rfl, rfl⟩
  case noFault => exact ⟨rfl, rfl, rfl, rfl, rfl⟩
  case host => exact ⟨rfl, rfl, rfl⟩

/-- Settles O9: each read falls into an S-box of its own, and F follows the list of its reads up to the first that is not
Mapped. -/
theorem roundReadsInOrder : Obligations.RoundReadsInOrder := by
  intro s sb w hsb hw haligned hrange
  refine ⟨roundReads_nodup hrange w, (feistelReads_eq_roundReads sb w).symm, fun hmapped => ?_,
    fun made a later hreads hmade ha => ?_⟩
  · exact ⟨_, exec_round_mapped hsb hw haligned hrange hmapped, rfl, rfl, rfl, rfl, rfl, rfl⟩
  · exact ⟨_, exec_round_bus hsb hw haligned hrange hreads hmade ha, recorded_raise rfl rfl _ _, rfl, rfl⟩

end Sys2Proof.Proofs
end

section
/-! PROOFS. The block decryption DEC64 (41_block_decrypt.md R130-R136): its checks as arithmetic, its rounds as those of
the cipher over the schedule's words K[i], the state it completes in, and which words its accesses reach. -/

namespace Sys2Proof.Machine

open Sys2Proof.Spec

/-! ## The checks of DEC64 (R130, R135, R209) -/

/-- The checks of DEC64 on its two address operands, as arithmetic: both aligned, neither range past 2^32, and the block
clear of the schedule. -/
structure Dec64Checks (sb ba : Word) : Prop where
  schedule_aligned : sb.toNat % 4 = 0
  block_aligned : ba.toNat % 4 = 0
  schedule_range : sb.toNat + 4168 ≤ 2 ^ 32
  block_range : ba.toNat + 8 ≤ 2 ^ 32
  disjoint : ba.toNat + 8 ≤ sb.toNat ∨ sb.toNat + 4168 ≤ ba.toNat

section
variable {s : State} {sb ba : Word} (hsb : s.arg0.get? = some sb) (hba : s.arg1.get? = some ba)
include hsb hba

theorem operandPair_dec64 : operandPair .dec64 s = some (sb, ba) := by simp [operandPair, hsb, hba]

theorem accesses_dec64 : accesses .dec64 s = decryptAccesses s sb ba := by
  simp only [accesses, operandPair_dec64 hsb hba]

theorem dec64Checks_of_checked (h : Checked .dec64 s) : Dec64Checks sb ba := by
  have hpair := operandPair_dec64 hsb hba
  have hops : addressOperands .dec64 s = some [sb, ba] := by simp [addressOperands, hpair]
  have hranges : ranges .dec64 s = [(sb, 4168), (ba, 8)] := by simp only [ranges, hpair]
  obtain ⟨⟨ops, hops', haligned⟩, hinRange, hdisjoint⟩ := h
  obtain rfl := Option.some.inj (hops.symm.trans hops')
  simp only [InRange, Overlap, hranges, List.forall_mem_cons] at haligned hinRange hdisjoint
  obtain ⟨hsb4, hba4, -⟩ := haligned
  obtain ⟨hsbRange, hbaRange, -⟩ := hinRange
  exact ⟨hsb4, hba4, hsbRange, hbaRange, by omega⟩

/-- With its checks passed DEC64 is its block decryption, then completion where that meets no bus error (R130). -/
theorem exec_dec64_of_decryptBlock (h : Dec64Checks sb ba) {t : State} (hrun : decryptBlock sb ba s = .done () t) :
    exec .dec64 s = .next t.complete := by
  obtain ⟨hsb4, hba4, hsbRange, hbaRange, hdisjoint⟩ := h
  have hmisSb : ¬isMisaligned sb = true := by rw [isMisaligned_iff]; omega
  have hmisBa : ¬isMisaligned ba = true := by rw [isMisaligned_iff]; omega
  have hwrapSb : ¬rangeWraps sb scheduleBytes = true := by rw [rangeWraps_iff, scheduleBytes]; omega
  have hwrapBa : ¬rangeWraps ba blockBytes = true := by rw [rangeWraps_iff, blockBytes]; omega
  have hoverlap : ¬rangesOverlap ba blockBytes sb scheduleBytes = true := by
    rw [rangesOverlap_iff, blockBytes, scheduleBytes]
    omega
  have hexec : exec .dec64 s = .next (dec64On sb ba s) := by simp [exec, execDec64, hsb, hba]
  rw [hexec, dec64On, if_neg hmisSb, if_neg hmisBa, if_neg hwrapSb, if_neg hwrapBa, if_neg hoverlap, hrun]

end

/-! ## The rounds over the schedule (R131) -/

/-- The round indices from `n + 2` down to 2, as the loop takes them (R131). -/
def roundIndicesFrom : Nat → List Nat
  | 0 => [2]
  | n + 1 => (n + 3) :: roundIndicesFrom n

theorem roundIndicesFrom_fifteen : roundIndicesFrom 15 = roundIndices := rfl

/-- The words in flight after a round that left (L, R): `temp` is R (R131, R136). -/
def flightOf (b : Word × Word) : Flight := ⟨b.1, b.2, b.2⟩

/-- The reads of the rounds at the given indices from a block on: K[i], then the four of F (R133). -/
def roundsReads (K : Nat → Word) (sb : Word) (indices : List Nat) (b : Word × Word) : List Access :=
  (roundTemps K indices b).flatMap fun r => .read (at4 sb r.1) :: roundReads sb r.2

@[simp] theorem roundsReads_nil (K : Nat → Word) (sb : Word) (b : Word × Word) : roundsReads K sb [] b = [] := rfl

@[simp] theorem roundsReads_cons (K : Nat → Word) (sb : Word) (i : Nat) (is : List Nat) (b : Word × Word) :
    roundsReads K sb (i :: is) b =
      .read (at4 sb i) :: (roundReads sb (K i ^^^ b.1) ++ roundsReads K sb is (feistelRound K b i)) := rfl

theorem flightValue_eq_feistelRound (s : State) (sb : Word) (i : Nat) (b : Word × Word) :
    flightValue s.mem sb i b.1 b.2 = flightOf (feistelRound (schedule s sb) b i) := by
  rw [flightValue, feistelValue_eq_roundF, ← at4_eq_wordAddress]
  rfl

theorem flightReads_eq_reads (s : State) (sb : Word) (i : Nat) (left : Word) :
    flightReads s.mem sb i left = .read (at4 sb i) :: roundReads sb (schedule s sb i ^^^ left) := by
  rw [flightReads, feistelReads_eq_roundReads, ← at4_eq_wordAddress]
  rfl

theorem flightsValue_eq_foldl (s : State) (sb : Word) (n : Nat) (b : Word × Word) :
    flightsValue s.mem sb n b.1 b.2 = flightOf ((roundIndicesFrom n).foldl (feistelRound (schedule s sb)) b) := by
  induction n generalizing b with
  | zero => exact flightValue_eq_feistelRound s sb 2 b
  | succ n ih =>
    rw [flightsValue, flightValue_eq_feistelRound]
    exact ih (feistelRound (schedule s sb) b (n + 3))

theorem flightsReads_eq_roundsReads (s : State) (sb : Word) (n : Nat) (b : Word × Word) :
    flightsReads s.mem sb n b.1 b.2 = roundsReads (schedule s sb) sb (roundIndicesFrom n) b := by
  induction n generalizing b with
  | zero => simp [flightsReads, flightReads_eq_reads, roundIndicesFrom]
  | succ n ih =>
    rw [flightsReads, flightReads_eq_reads, flightValue_eq_feistelRound, roundIndicesFrom, roundsReads_cons]
    exact congrArg (_ :: _ ++ ·) (ih (feistelRound (schedule s sb) b (n + 3)))

/-! ## The state DEC64 completes in (R131-R133) -/

/-- The two words of the block at BA (R35). -/
def blockAt (m : Memory) (ba : Word) : Word × Word := (m.readWord ba, m.readWord (ba + 4#32))

/-- Memory with a block stored at BA, L first (R133). -/
def storeBlock (m : Memory) (ba : Word) (b : Word × Word) : Memory :=
  (m.writeWord ba b.1).writeWord (ba + 4#32) b.2

theorem decryptedWords_eq_decryptF (s : State) (sb ba : Word) :
    decryptedWords s.mem sb ba = decryptF (schedule s sb) (blockAt s.mem ba) := by
  have hflight := flightsValue_eq_foldl s sb 15 (blockAt s.mem ba)
  simp only [blockAt, roundIndicesFrom_fifteen] at hflight
  simp only [decryptedWords, add32, hflight, ← at4_eq_wordAddress]
  rfl

theorem decryptAccesses_eq (s : State) (sb ba : Word) : decryptAccesses s sb ba =
    .read ba :: .read (ba + 4#32) :: (roundsReads (schedule s sb) sb roundIndices (blockAt s.mem ba) ++
      [.read (at4 sb 1), .read (at4 sb 0), .write ba, .write (ba + 4#32)]) := rfl

theorem decryptBlockAccesses_eq_decryptAccesses (s : State) (sb ba : Word) :
    decryptBlockAccesses s.mem sb ba = decryptAccesses s sb ba := by
  have hreads := flightsReads_eq_roundsReads s sb 15 (blockAt s.mem ba)
  simp only [blockAt, roundIndicesFrom_fifteen] at hreads
  simp only [decryptBlockAccesses, add32, hreads, ← at4_eq_wordAddress]
  rfl

/-- With every word it accesses Mapped, the block decryption makes the accesses of R133 and stores the decryption. -/
theorem decryptBlock_done {s : State} {sb ba : Word}
    (h : ∀ x ∈ decryptAccesses s sb ba, s.platform.mapped x.address = true) :
    decryptBlock sb ba s = .done () ((s.recordAll (decryptAccesses s sb ba)).withMem
      (storeBlock s.mem ba (decryptF (schedule s sb) (blockAt s.mem ba)))) := by
  rw [← decryptBlockAccesses_eq_decryptAccesses] at h ⊢
  rw [← decryptedWords_eq_decryptF]
  exact (decryptBlock_follows sb ba s).1 h

/-- DEC64 with its checks passed and its words Mapped: the one state it can end in (R131, R132, R133). -/
theorem exec_dec64_mapped {s : State} {sb ba : Word} (hsb : s.arg0.get? = some sb) (hba : s.arg1.get? = some ba)
    (hchecks : Dec64Checks sb ba) (hmapped : AllMapped .dec64 s) :
    exec .dec64 s = .next ((s.recordAll (decryptAccesses s sb ba)).withMem
      (storeBlock s.mem ba (decryptF (schedule s sb) (blockAt s.mem ba)))).complete := by
  rw [AllMapped, accesses_dec64 hsb hba] at hmapped
  exact exec_dec64_of_decryptBlock hsb hba hchecks (decryptBlock_done hmapped)

/-! ## The block stored (R132) -/

section
variable {ba : Word} (hrange : ba.toNat + 8 ≤ 2 ^ 32)
include hrange

theorem toNat_second_word : (ba + 4#32).toNat = ba.toNat + 4 :=
  at4_toNat (base := ba) (i := 1) (by omega)

/-- A block just stored reads back, since its words share no byte. -/
theorem blockAt_storeBlock (m : Memory) (b : Word × Word) : blockAt (storeBlock m ba b) ba = b := by
  have hfirst : (storeBlock m ba b).readWord ba = (m.writeWord ba b.1).readWord ba := by
    refine readWord_congr fun x hx => read_writeWord_outside _ _ _ _ fun hx' => ?_
    have hsecond := toNat_second_word hrange
    rw [mem_wordBytes_iff (by omega), InBytes] at hx hx'
    omega
  rw [blockAt, hfirst, readWord_writeWord_self, storeBlock, readWord_writeWord_self]

theorem storeBlock_read_outside (m : Memory) (b : Word × Word) {x : Word} (hx : ¬InBytes ba 8 x) :
    (storeBlock m ba b).read x = m.read x := by
  have hsecond := toNat_second_word hrange
  rw [InBytes] at hx
  have hleft : x ∉ wordBytes ba := by
    rw [mem_wordBytes_iff (by omega), InBytes]
    omega
  have hright : x ∉ wordBytes (ba + 4#32) := by
    rw [mem_wordBytes_iff (by omega), InBytes]
    omega
  rw [storeBlock, read_writeWord_outside _ _ _ _ hright, read_writeWord_outside _ _ _ _ hleft]

end

/-! ## The accesses of the rounds (R133, R134) -/

@[simp] theorem length_roundReads (sb w : Word) : (roundReads sb w).length = 4 := rfl

theorem length_roundsReads (K : Nat → Word) (sb : Word) (is : List Nat) (b : Word × Word) :
    (roundsReads K sb is b).length = 5 * is.length := by
  induction is generalizing b with
  | nil => rfl
  | cons i is ih =>
    simp [ih]
    omega

/-- The rounds only read, at words of the schedule: K[i] of each round and S-box words. -/
theorem mem_roundsReads {K : Nat → Word} {sb : Word} {is : List Nat} {b : Word × Word} {x : Access}
    (h : x ∈ roundsReads K sb is b) : ∃ i, x = .read (at4 sb i) := by
  obtain ⟨r, -, hx⟩ := List.mem_flatMap.1 h
  rcases List.mem_cons.1 hx with rfl | hx
  · exact ⟨r.1, rfl⟩
  · obtain ⟨i, -, rfl⟩ := List.mem_map.1 hx
    exact ⟨i, rfl⟩

/-- An access is a write. -/
def isWrite (x : Access) : Bool := x = .write x.address

theorem filter_isWrite_roundsReads (K : Nat → Word) (sb : Word) (is : List Nat) (b : Word × Word) :
    (roundsReads K sb is b).filter isWrite = [] := by
  refine List.filter_eq_nil_iff.2 fun x hx => ?_
  obtain ⟨i, rfl⟩ := mem_roundsReads hx
  simp [isWrite]

/-- An access falls into the P-array, K[0] to K[17] (R34). -/
def inPArray (sb : Word) (x : Access) : Bool :=
  sb.toNat ≤ x.address.toNat && x.address.toNat < sb.toNat + 0x48

/-- An access falls into the S-boxes, K[18] to K[1041] (R34). -/
def inSBoxes (sb : Word) (x : Access) : Bool :=
  sb.toNat + 0x48 ≤ x.address.toNat && x.address.toNat < sb.toNat + 0x1048

section
variable {sb : Word} (hrange : sb.toNat + 4168 ≤ 2 ^ 32)
include hrange

theorem inPArray_at4 {i : Nat} (hi : i < 1042) : inPArray sb (.read (at4 sb i)) = decide (i < 18) := by
  rw [inPArray, Access.address_read, at4_toNat (by omega), ← Bool.decide_and, decide_eq_decide]
  omega

theorem inSBoxes_at4 {i : Nat} (hi : i < 1042) : inSBoxes sb (.read (at4 sb i)) = decide (18 ≤ i) := by
  rw [inSBoxes, Access.address_read, at4_toNat (by omega), ← Bool.decide_and, decide_eq_decide]
  omega

theorem filter_inPArray_roundReads (w : Word) : (roundReads sb w).filter (inPArray sb) = [] := by
  refine List.filter_eq_nil_iff.2 (List.forall_mem_map.2 fun i hi => ?_)
  obtain ⟨hlow, hhigh⟩ := boxIndices_bounds hi
  simpa [inPArray_at4 hrange hhigh] using hlow

theorem filter_inSBoxes_roundReads (w : Word) : (roundReads sb w).filter (inSBoxes sb) = roundReads sb w := by
  refine List.filter_eq_self.2 (List.forall_mem_map.2 fun i hi => ?_)
  obtain ⟨hlow, hhigh⟩ := boxIndices_bounds hi
  simpa [inSBoxes_at4 hrange hhigh] using hlow

/-- The rounds read of the P-array the words K[i] of their indices, in order and each once (R134). -/
theorem filter_inPArray_roundsReads (K : Nat → Word) {is : List Nat} (his : ∀ i ∈ is, i < 18) (b : Word × Word) :
    (roundsReads K sb is b).filter (inPArray sb) = is.map fun i => .read (at4 sb i) := by
  induction is generalizing b with
  | nil => rfl
  | cons i is ih =>
    obtain ⟨hi, his⟩ := List.forall_mem_cons.1 his
    have hkey : inPArray sb (.read (at4 sb i)) = true := by
      rw [inPArray_at4 hrange (by omega)]
      exact decide_eq_true hi
    rw [roundsReads_cons, List.filter_cons_of_pos hkey, List.filter_append, filter_inPArray_roundReads hrange, ih his]
    rfl

/-- Each round makes four reads of S-box words (R134). -/
theorem length_filter_inSBoxes_roundsReads (K : Nat → Word) {is : List Nat} (his : ∀ i ∈ is, i < 18)
    (b : Word × Word) : ((roundsReads K sb is b).filter (inSBoxes sb)).length = 4 * is.length := by
  induction is generalizing b with
  | nil => rfl
  | cons i is ih =>
    obtain ⟨hi, his⟩ := List.forall_mem_cons.1 his
    have hkey : ¬inSBoxes sb (.read (at4 sb i)) = true := by
      rw [inSBoxes_at4 hrange (by omega), decide_eq_true_iff]
      omega
    rw [roundsReads_cons, List.filter_cons_of_neg hkey, List.filter_append, filter_inSBoxes_roundReads hrange,
      List.length_append, length_roundReads, ih his, List.length_cons]
    omega

end

/-- The loop always runs sixteen times (R131). -/
theorem length_roundIndices : roundIndices.length = 16 := rfl

/-- The loop takes its keys from the P-array. -/
theorem roundIndices_lt : ∀ i ∈ roundIndices, i < 18 := by decide

/-- The accesses to the block reach no word of the schedule (R135). -/
theorem not_inSchedule_of_block {sb ba : Word} (h : Dec64Checks sb ba) {x : Access}
    (hx : x.address = ba ∨ x.address = ba + 4#32) : inPArray sb x = false ∧ inSBoxes sb x = false := by
  have hsecond := toNat_second_word h.block_range
  have hdisjoint := h.disjoint
  rw [inPArray, inSBoxes, ← Bool.decide_and, ← Bool.decide_and, decide_eq_false_iff_not, decide_eq_false_iff_not]
  rcases hx with hx | hx <;> rw [hx] <;> omega

theorem length_decryptAccesses (s : State) (sb ba : Word) : (decryptAccesses s sb ba).length = 86 := by
  rw [decryptAccesses_eq]
  simp [length_roundsReads, length_roundIndices]

theorem length_filter_isWrite_decryptAccesses (s : State) (sb ba : Word) :
    ((decryptAccesses s sb ba).filter isWrite).length = 2 := by
  rw [decryptAccesses_eq]
  simp [filter_isWrite_roundsReads, isWrite]

/-- Of the P-array DEC64 reads the keys of its rounds, then K[1] and K[0] (R134). -/
theorem filter_inPArray_decryptAccesses {sb ba : Word} (h : Dec64Checks sb ba) (s : State) :
    (decryptAccesses s sb ba).filter (inPArray sb) = (roundIndices ++ [1, 0]).map fun i => .read (at4 sb i) := by
  have hrange := h.schedule_range
  have hkey1 := inPArray_at4 hrange (i := 1) (by decide)
  have hkey0 := inPArray_at4 hrange (i := 0) (by decide)
  have hblock := fun x hx => (not_inSchedule_of_block h (x := x) hx).1
  rw [decryptAccesses_eq]
  simp [filter_inPArray_roundsReads hrange _ roundIndices_lt, hkey1, hkey0, hblock]

theorem length_filter_inSBoxes_decryptAccesses {sb ba : Word} (h : Dec64Checks sb ba) (s : State) :
    ((decryptAccesses s sb ba).filter (inSBoxes sb)).length = 64 := by
  have hrange := h.schedule_range
  have hkey1 := inSBoxes_at4 hrange (i := 1) (by decide)
  have hkey0 := inSBoxes_at4 hrange (i := 0) (by decide)
  have hblock := fun x hx => (not_inSchedule_of_block h (x := x) hx).2
  have hrounds := length_filter_inSBoxes_roundsReads hrange (schedule s sb) roundIndices_lt (blockAt s.mem ba)
  rw [decryptAccesses_eq]
  simp [hrounds, hkey1, hkey0, hblock, length_roundIndices]

end Sys2Proof.Machine

namespace Sys2Proof.Proofs

open Sys2Proof.Machine Sys2Proof.Spec

/-- Settles O11: the model's rounds are those of the cipher over K[i], and the block stored reads back and reaches no
other byte. -/
theorem dec64DecryptsTheBlock : Obligations.Dec64DecryptsTheBlock := by
  intro s sb ba hsb hba hchecked hmapped
  have hchecks := dec64Checks_of_checked hsb hba hchecked
  refine ⟨_, exec_dec64_mapped hsb hba hchecks hmapped, ?block, fun x hx => ?outside, rfl, ?args, ?noFault, ?host⟩
  case block => exact blockAt_storeBlock hchecks.block_range s.mem _
  case outside => exact storeBlock_read_outside hchecks.block_range s.mem _ hx
  case args => exact ⟨rfl, rfl, rfl⟩
  case noFault => exact ⟨rfl, rfl, rfl, rfl, rfl⟩
  case host => exact ⟨rfl, rfl, rfl⟩

/-- Settles O12: five reads in each of the sixteen rounds, two of the block, those of K[1] and K[0], and two writes. -/
theorem dec64AccessOrder : Obligations.Dec64AccessOrder := by
  intro s sb ba hsb hba hchecked hmapped
  have hchecks := dec64Checks_of_checked hsb hba hchecked
  exact ⟨_, exec_dec64_mapped hsb hba hchecks hmapped, rfl, length_decryptAccesses s sb ba,
    length_filter_isWrite_decryptAccesses s sb ba⟩

/-- Settles O13: of the reads of a round the first alone falls into the P-array and the other four into the S-boxes, and
the block lies outside the schedule. -/
theorem dec64TraversesThePArray : Obligations.Dec64TraversesThePArray := by
  intro s sb ba hsb hba hchecked hmapped
  have hchecks := dec64Checks_of_checked hsb hba hchecked
  exact ⟨_, _, exec_dec64_mapped hsb hba hchecks hmapped, rfl, filter_inPArray_decryptAccesses hchecks s,
    length_filter_inSBoxes_decryptAccesses hchecks s⟩

end Sys2Proof.Proofs
end

section
/-! PROOFS. The bulk mover (42_bulk_mover.md R160-R168): its checks as arithmetic, the memory and the accesses of the
words it moves, the state it completes in, and the bound on its accesses. -/

namespace Sys2Proof.Machine

open Sys2Proof.Spec

/-! ## What a MOVE reads of the state, whichever form it takes (R82, R84, R160) -/

section
variable {i : Instr} {s : State} {src dst : Word} {mode : MoveMode} {count : Nat} (hsrc : s.arg0.get? = some src)
  (hdst : s.arg1.get? = some dst) (hform : moveForm i s = some (mode, count))
include hsrc hdst hform

theorem operandPair_of_moveForm : operandPair i s = some (src, dst) := by
  have hctrl : ¬(i = .move ∧ s.arg2.get? = none) := by
    rintro ⟨rfl, harg⟩
    simp [moveForm, harg] at hform
  simp [operandPair, hsrc, hdst, hctrl]

theorem addressOperands_of_moveForm : addressOperands i s = some [src, dst] := by
  have hround : i ≠ .round := by
    rintro rfl
    cases hform
  simp [addressOperands, operandPair_of_moveForm hsrc hdst hform, hround]

theorem ranges_of_moveForm : ranges i s = moveRanges src dst mode count := by
  rw [ranges, operandPair_of_moveForm hsrc hdst hform]
  cases i with
  | round => cases hform
  | dec64 => cases hform
  | move => simp [hform]
  | moveCopy n => cases hform; rfl
  | moveFill n => cases hform; rfl

theorem accesses_of_moveForm : accesses i s = moveAccesses mode src dst count := by
  rw [accesses, operandPair_of_moveForm hsrc hdst hform]
  cases i with
  | round => cases hform
  | dec64 => cases hform
  | move => simp [hform]
  | moveCopy n => cases hform; rfl
  | moveFill n => cases hform; rfl

end

/-- COUNT never has bit 24, so it is at most 0xFEFFFFFF (R82, R89). -/
theorem count_le_of_moveForm {i : Instr} {s : State} {mode : MoveMode} {count : Nat} (hwf : WellFormed i = true)
    (hform : moveForm i s = some (mode, count)) : count ≤ 0xFEFFFFFF := by
  have hfits : ∀ n : Word, countFits n = true → n.toNat ≤ 0xFEFFFFFF := fun n hn =>
    controlCount_of_bit24_clear (countFits_iff.1 hn) ▸ toNat_controlCount_le n
  cases i with
  | round => cases hform
  | dec64 => cases hform
  | move =>
    obtain ⟨ctrl, -, hctrl⟩ := Option.map_eq_some_iff.1 hform
    cases hctrl
    exact toNat_controlCount_le ctrl
  | moveCopy n => cases hform; exact hfits n hwf
  | moveFill n => cases hform; exact hfits n hwf

/-! ## The checks of MOVE (R160, R163, R164, R209) -/

/-- The checks of MOVE on its operands, as arithmetic: both aligned, neither range past 2^32, and the ranges disjoint.
With COUNT = 0 no range is checked, and aligned operands alone give the last three (`moveChecks_zero`). -/
structure MoveChecks (mode : MoveMode) (src dst : Word) (count : Nat) : Prop where
  source_aligned : src.toNat % 4 = 0
  destination_aligned : dst.toNat % 4 = 0
  source_range : src.toNat + sourceBytes mode count ≤ 2 ^ 32
  destination_range : dst.toNat + 4 * count ≤ 2 ^ 32
  disjoint : src.toNat + sourceBytes mode count ≤ dst.toNat ∨ dst.toNat + 4 * count ≤ src.toNat

theorem moveChecks_zero (mode : MoveMode) {src dst : Word} (hsrc : src.toNat % 4 = 0) (hdst : dst.toNat % 4 = 0) :
    MoveChecks mode src dst 0 := by
  have hlt := src.isLt
  have hlt' := dst.isLt
  have hbytes : sourceBytes mode 0 = 0 ∨ sourceBytes mode 0 = 4 := by
    cases mode with
    | copy => exact .inl rfl
    | fill => exact .inr rfl
  exact ⟨hsrc, hdst, by omega, by omega, by omega⟩

theorem moveRanges_pos {count : Nat} (hpos : 0 < count) (mode : MoveMode) (src dst : Word) :
    moveRanges src dst mode count = [(src, sourceBytes mode count), (dst, 4 * count)] := by
  rw [moveRanges, if_neg hpos.ne']
  cases mode <;> rfl

theorem moveChecks_of_checked {i : Instr} {s : State} {src dst : Word} {mode : MoveMode} {count : Nat}
    (hsrc : s.arg0.get? = some src) (hdst : s.arg1.get? = some dst) (hform : moveForm i s = some (mode, count))
    (h : Checked i s) : MoveChecks mode src dst count := by
  obtain ⟨⟨ops, hops, haligned⟩, hinRange, hdisjoint⟩ := h
  obtain rfl := Option.some.inj ((addressOperands_of_moveForm hsrc hdst hform).symm.trans hops)
  simp only [List.forall_mem_cons] at haligned
  obtain ⟨hsrc4, hdst4, -⟩ := haligned
  rcases Nat.eq_zero_or_pos count with rfl | hpos
  · exact moveChecks_zero mode hsrc4 hdst4
  · simp only [InRange, Overlap, ranges_of_moveForm hsrc hdst hform, moveRanges_pos hpos,
      List.forall_mem_cons] at hinRange hdisjoint
    obtain ⟨hsrcRange, hdstRange, -⟩ := hinRange
    exact ⟨hsrc4, hdst4, hsrcRange, hdstRange, by omega⟩

/-! ## The ends of MOVE on valid operands (R160, R163, R203) -/

theorem not_isMisaligned_of_aligned {a : Word} (h : a.toNat % 4 = 0) : ¬isMisaligned a = true := by
  rwa [isMisaligned_iff, not_not]

theorem moveOn_misaligned_source {src : Word} (h : src.toNat % 4 ≠ 0) (mode : MoveMode) (dst : Word) (count : Nat)
    (s : State) : moveOn mode src dst count s = s.raise .misaligned src :=
  if_pos ((isMisaligned_iff src).2 h)

theorem moveOn_misaligned_destination {src dst : Word} (hsrc : src.toNat % 4 = 0) (hdst : dst.toNat % 4 ≠ 0)
    (mode : MoveMode) (count : Nat) (s : State) : moveOn mode src dst count s = s.raise .misaligned dst := by
  rw [moveOn, if_neg (not_isMisaligned_of_aligned hsrc), if_pos ((isMisaligned_iff dst).2 hdst)]

/-- With COUNT = 0 a MOVE on aligned operands completes at once (R163). -/
theorem moveOn_zero {src dst : Word} (hsrc : src.toNat % 4 = 0) (hdst : dst.toNat % 4 = 0) (mode : MoveMode)
    (s : State) : moveOn mode src dst 0 s = s.complete := by
  rw [moveOn, if_neg (not_isMisaligned_of_aligned hsrc), if_neg (not_isMisaligned_of_aligned hdst), if_pos rfl]

/-- With its checks passed MOVE moves its words, then completes or raises BUS_ERROR where that ended. -/
theorem moveOn_of_moveWords {mode : MoveMode} {src dst : Word} {count : Nat} {s : State}
    (h : MoveChecks mode src dst count) :
    (∀ t, moveWords mode src dst count 0 s = .done () t → moveOn mode src dst count s = t.complete) ∧
    (∀ a t, moveWords mode src dst count 0 s = .bus a t →
      moveOn mode src dst count s = (t.unspecify dst count).raise .busError a) := by
  obtain ⟨hsrc, hdst, hsrcRange, hdstRange, hdisjoint⟩ := h
  rcases Nat.eq_zero_or_pos count with rfl | hpos
  · rw [moveOn_zero hsrc hdst]
    exact ⟨fun t ht => by cases ht; rfl, fun a t ht => nomatch ht⟩
  · have hwrapSrc : ¬rangeWraps src (sourceBytes mode count) = true := by rw [rangeWraps_iff]; omega
    have hwrapDst : ¬rangeWraps dst (4 * count) = true := by rw [rangeWraps_iff]; omega
    have hoverlap : ¬rangesOverlap src (sourceBytes mode count) dst (4 * count) = true := by
      rw [rangesOverlap_iff]
      omega
    rw [moveOn, if_neg (not_isMisaligned_of_aligned hsrc), if_neg (not_isMisaligned_of_aligned hdst), if_neg hpos.ne',
      if_neg hwrapSrc, if_neg hwrapDst, if_neg hoverlap]
    exact ⟨fun t ht => by rw [ht], fun a t ht => by rw [ht]⟩

/-- A block fault raised before any access leaves all but what it records (R211). -/
theorem preciseFault_raise (s : State) (c : Cause) (info : Word) : PreciseFault s (s.raise c info) c info :=
  ⟨recorded_raise rfl rfl c info, rfl, rfl, rfl, rfl, rfl, rfl⟩

/-! ## The accesses of the words moved (R165, R166, R168) -/

theorem sourceWord_eq_sourceAddress (mode : MoveMode) (src : Word) (k : Nat) :
    sourceWord mode src k = sourceAddress mode src k := by
  cases mode with
  | copy => exact at4_eq_wordAddress src k
  | fill => rfl

theorem moveWordsAccesses_eq_flatMap (mode : MoveMode) (src dst : Word) (n k : Nat) :
    moveWordsAccesses mode src dst n k =
      (List.range' k n).flatMap fun j => [.read (sourceWord mode src j), .write (at4 dst j)] := by
  induction n generalizing k with
  | zero => rfl
  | succ n ih =>
    rw [moveWordsAccesses, ih, List.range'_succ, ← sourceWord_eq_sourceAddress, ← at4_eq_wordAddress]
    rfl

theorem moveWordsAccesses_eq_moveAccesses (mode : MoveMode) (src dst : Word) (count : Nat) :
    moveWordsAccesses mode src dst count 0 = moveAccesses mode src dst count := by
  rw [moveWordsAccesses_eq_flatMap, moveAccesses, List.range_eq_range']

theorem length_moveWordsAccesses (mode : MoveMode) (src dst : Word) (n k : Nat) :
    (moveWordsAccesses mode src dst n k).length = 2 * n := by
  induction n generalizing k with
  | zero => rfl
  | succ n ih =>
    rw [moveWordsAccesses, List.length_cons, List.length_cons, ih]
    omega

/-- Moving words stops at the first read where that is not Mapped, with no access made (R166, R205). -/
theorem moveWords_bus_at_source {mode : MoveMode} {src : Word} {n k : Nat} {s : State} (hpos : 0 < n)
    (h : s.platform.mapped (sourceAddress mode src k) = false) (dst : Word) :
    moveWords mode src dst n k s = .bus (sourceAddress mode src k) s := by
  cases n with
  | zero => exact absurd hpos (lt_irrefl 0)
  | succ n => rw [moveWords, memRead_unmapped h, Ran.bind]

/-- A MOVE on valid operands makes no access but those of moving its words. -/
theorem moveOn_trace (mode : MoveMode) (src dst : Word) (count : Nat) (s : State) :
    (moveOn mode src dst count s).trace = s.trace ∨
      (moveOn mode src dst count s).trace = (moveWords mode src dst count 0 s).state.trace := by
  unfold moveOn
  split_ifs
  · exact .inl rfl
  · exact .inl rfl
  · exact .inl rfl
  · exact .inl rfl
  · exact .inl rfl
  · exact .inl rfl
  · split <;> rename_i heq <;> rw [heq] <;> exact .inr rfl

/-- A MOVE on valid operands makes at most two accesses for each word (R168). -/
theorem moveOn_accesses_bounded (mode : MoveMode) (src dst : Word) (count : Nat) (s : State) :
    ∃ made, (moveOn mode src dst count s).trace = s.trace ++ made ∧ made.length ≤ 2 * count := by
  rcases moveOn_trace mode src dst count s with htrace | htrace
  · exact ⟨[], by rw [htrace, List.append_nil], Nat.zero_le _⟩
  · obtain ⟨made, later, n, hlist, hstate, -⟩ := (moveWords_follows mode src dst count 0 s).made
    have hlength := congrArg List.length hlist
    rw [length_moveWordsAccesses, List.length_append] at hlength
    exact ⟨made, by rw [htrace, hstate]; rfl, by omega⟩

/-! ## The memory after the words are moved (R161, R162) -/

theorem read_movedMemory_outside {mode : MoveMode} {src dst x : Word} {n k : Nat}
    (h : ∀ j, k ≤ j → j < k + n → x ∉ wordBytes (wordAddress dst j)) (m : Memory) :
    (movedMemory mode src dst n k m).read x = m.read x := by
  induction n generalizing k m with
  | zero => rfl
  | succ n ih =>
    rw [movedMemory, ih fun j hj hj' => h j (by omega) (by omega),
      read_writeWord_outside _ _ _ _ (h k (by omega) (by omega))]

section
variable {mode : MoveMode} {src dst : Word} {count : Nat} (h : MoveChecks mode src dst count)
include h

theorem MoveChecks.toNat_destination {k : Nat} (hk : k < count) :
    (wordAddress dst k).toNat = dst.toNat + 4 * k := by
  have hrange := h.destination_range
  exact wordAddress_toNat (by omega)

/-- No word MOVE reads is one it writes: this is what lets a copy read each word as it was before (R164, R165). -/
theorem MoveChecks.source_ne_destination {j k : Nat} (hj : j < count) (hk : k < count) :
    sourceAddress mode src j ≠ wordAddress dst k := by
  have hsrcRange := h.source_range
  have hdisjoint := h.disjoint
  intro heq
  have hnat := congrArg BitVec.toNat heq
  rw [h.toNat_destination hk] at hnat
  cases mode with
  | copy =>
    simp only [sourceBytes] at hsrcRange hdisjoint
    rw [sourceAddress, wordAddress_toNat (by omega)] at hnat
    omega
  | fill =>
    simp only [sourceBytes] at hdisjoint
    rw [sourceAddress] at hnat
    omega

theorem MoveChecks.destination_ne {j k : Nat} (hj : j < count) (hk : k < count) (hne : j ≠ k) :
    wordAddress dst j ≠ wordAddress dst k := by
  intro heq
  have hnat := congrArg BitVec.toNat heq
  rw [h.toNat_destination hj, h.toNat_destination hk] at hnat
  omega

/-- A write of one destination word reaches no word still to be read. -/
theorem MoveChecks.readWord_source_writeWord {j k : Nat} (hj : j < count) (hk : k < count) (m : Memory) (v : Word) :
    (m.writeWord (wordAddress dst k) v).readWord (sourceAddress mode src j) =
      m.readWord (sourceAddress mode src j) :=
  readWord_congr fun _ hx => read_writeWord_outside _ _ _ _ <|
    wordBytes_disjoint (aligned_sourceAddress h.source_aligned mode j) (aligned_wordAddress h.destination_aligned k)
      (h.source_ne_destination hj hk) hx

/-- Words moved later leave an earlier destination word alone. -/
theorem MoveChecks.readWord_destination_of_lt {n j k : Nat} (hj : j < k) (hn : k + n ≤ count) (hcount : j < count)
    (m : Memory) :
    (movedMemory mode src dst n k m).readWord (wordAddress dst j) = m.readWord (wordAddress dst j) :=
  readWord_congr fun _ hx => read_movedMemory_outside (fun l hl hl' =>
    wordBytes_disjoint (aligned_wordAddress h.destination_aligned j) (aligned_wordAddress h.destination_aligned l)
      (h.destination_ne hcount (by omega) (by omega)) hx) m

/-- Each destination word moved holds what its source word held before the first of them was moved. -/
theorem MoveChecks.readWord_movedMemory {n j k : Nat} (hkj : k ≤ j) (hj : j < k + n) (hn : k + n ≤ count)
    (m : Memory) :
    (movedMemory mode src dst n k m).readWord (wordAddress dst j) = m.readWord (sourceAddress mode src j) := by
  induction n generalizing k m with
  | zero => omega
  | succ n ih =>
    rw [movedMemory]
    rcases hkj.eq_or_lt with rfl | hlt
    · rw [h.readWord_destination_of_lt (by omega) (by omega) (by omega), readWord_writeWord_self]
    · rw [ih hlt (by omega) (by omega), h.readWord_source_writeWord (by omega) (by omega)]

theorem MoveChecks.readWord_moved {k : Nat} (hk : k < count) (m : Memory) :
    (movedMemory mode src dst count 0 m).readWord (at4 dst k) = m.readWord (sourceWord mode src k) := by
  rw [at4_eq_wordAddress, sourceWord_eq_sourceAddress]
  exact h.readWord_movedMemory (Nat.zero_le k) (by omega) (by omega) m

theorem MoveChecks.read_moved_outside {x : Word} (hx : ¬InBytes dst (4 * count) x) (m : Memory) :
    (movedMemory mode src dst count 0 m).read x = m.read x :=
  read_movedMemory_outside (fun k _ hk hmem =>
    hx ((exists_mem_wordBytes_iff h.destination_range).1 ⟨k, by omega, hmem⟩)) m

end

/-! ## MOVE with its checks passed (R165, R166) -/

section
variable {i : Instr} {s : State} {src dst : Word} {mode : MoveMode} {count : Nat} (hsrc : s.arg0.get? = some src)
  (hdst : s.arg1.get? = some dst) (hform : moveForm i s = some (mode, count))
  (hchecks : MoveChecks mode src dst count)
include hsrc hdst hform hchecks

/-- MOVE with its checks passed and its words Mapped: the one state it can end in. -/
theorem exec_move_mapped (hmapped : AllMapped i s) :
    exec i s = .next ((s.recordAll (moveAccesses mode src dst count)).withMem
      (movedMemory mode src dst count 0 s.mem)).complete := by
  rw [AllMapped, accesses_of_moveForm hsrc hdst hform, ← moveWordsAccesses_eq_moveAccesses] at hmapped
  have hdone := (moveWords_follows mode src dst count 0 s).1 hmapped
  rw [exec_of_moveForm hsrc hdst hform, (moveOn_of_moveWords hchecks).1 _ hdone, moveWordsAccesses_eq_moveAccesses]

/-- MOVE ends at its first read where that is not Mapped (R166, R205). -/
theorem exec_move_source_unmapped (hpos : 0 < count)
    (hunmapped : s.platform.mapped (sourceAddress mode src 0) = false) :
    exec i s = .next ((s.unspecify dst count).raise .busError (sourceAddress mode src 0)) := by
  have hbus := moveWords_bus_at_source hpos hunmapped dst
  rw [exec_of_moveForm hsrc hdst hform, (moveOn_of_moveWords hchecks).2 _ _ hbus]

end

end Sys2Proof.Machine

namespace Sys2Proof.Proofs

open Sys2Proof.Machine Sys2Proof.Spec

/-- Settles O18: the words written are none of those still to be read, so each arrives as it was at the start. -/
theorem copyMovesEveryWord : Obligations.CopyMovesEveryWord := by
  intro i s src dst count hsrc hdst hform hchecked hmapped
  have hchecks := moveChecks_of_checked hsrc hdst hform hchecked
  refine ⟨_, exec_move_mapped hsrc hdst hform hchecks hmapped, fun k hk => ?words, fun k hk => ?noWrap,
    fun x hx => ?outside, rfl, rfl, ?args, ?noFault, ?host⟩
  case words => exact hchecks.readWord_moved hk s.mem
  case noWrap =>
    have hsrcRange : src.toNat + 4 * count ≤ 2 ^ 32 := hchecks.source_range
    have hdstRange := hchecks.destination_range
    exact ⟨at4_toNat (by omega), at4_toNat (by omega)⟩
  case outside => exact hchecks.read_moved_outside hx s.mem
  case args => exact ⟨rfl, rfl, rfl⟩
  case noFault => exact ⟨rfl, rfl, rfl, rfl, rfl⟩
  case host => exact ⟨rfl, rfl, rfl⟩

/-- Settles O19: the source word is none of those written, so every read of it gives the word it held at the start;
where it is not Mapped the first read ends the fill. -/
theorem fillBroadcastsTheSourceWord : Obligations.FillBroadcastsTheSourceWord := by
  intro i s src dst count hsrc hdst hform hchecked
  have hchecks := moveChecks_of_checked hsrc hdst hform hchecked
  constructor
  · intro hmapped
    refine ⟨_, exec_move_mapped hsrc hdst hform hchecks hmapped, fun k hk => ?words, fun x hx => ?outside, rfl, rfl,
      ?args, ?noFault, ?host⟩
    case words => exact hchecks.readWord_moved hk s.mem
    case outside => exact hchecks.read_moved_outside hx s.mem
    case args => exact ⟨rfl, rfl, rfl⟩
    case noFault => exact ⟨rfl, rfl, rfl, rfl, rfl⟩
    case host => exact ⟨rfl, rfl, rfl⟩
  · intro hpos hunmapped
    exact ⟨_, exec_move_source_unmapped hsrc hdst hform hchecks hpos hunmapped, recorded_raise rfl rfl _ _, rfl⟩

/-- Settles O22: the accesses made are a first stretch of a list of two for each word, and COUNT lacks bit 24. -/
theorem moveAlwaysEnds : Obligations.MoveAlwaysEnds := by
  intro i s mode count hwf hform
  have hbound : 2 * count ≤ 2 * 0xFEFFFFFF := Nat.mul_le_mul_left 2 (count_le_of_moveForm hwf hform)
  cases hpair : operandPair i s with
  | none => exact ⟨_, [], exec_of_operandPair_none hpair, (List.append_nil _).symm, Nat.zero_le _, hbound⟩
  | some operands =>
    obtain ⟨src, dst⟩ := operands
    obtain ⟨hsrc, hdst, -⟩ := operandPair_eq_some hpair
    obtain ⟨made, htrace, hlength⟩ := moveOn_accesses_bounded mode src dst count s
    exact ⟨_, made, exec_of_moveForm hsrc hdst hform, htrace, hlength, hbound⟩

/-- Settles O20: the alignment checks come before the test of COUNT, and the range checks and the accesses after it. -/
theorem moveOfNothing : Obligations.MoveOfNothing := by
  intro i s mode src dst hsrc hdst hform
  rw [exec_of_moveForm hsrc hdst hform]
  refine ⟨fun hsrc4 hdst4 => ?completes, fun hsrc4 => ?source, fun hsrc4 hdst4 => ?destination⟩
  case completes =>
    rw [moveOn_zero hsrc4 hdst4]
    exact ⟨_, rfl, rfl, rfl, rfl, ⟨rfl, rfl, rfl⟩, ⟨rfl, rfl, rfl, rfl, rfl⟩, rfl, rfl, rfl⟩
  case source =>
    rw [moveOn_misaligned_source hsrc4]
    exact ⟨_, rfl, preciseFault_raise s .misaligned src⟩
  case destination =>
    rw [moveOn_misaligned_destination hsrc4 hdst4]
    exact ⟨_, rfl, preciseFault_raise s .misaligned dst⟩

end Sys2Proof.Proofs
end

section
/-! PROOFS. The block faults taken before any access (60_exceptions.md R202-R204, R209, R211): the illegal command word,
and the checks every command makes on its address operands and then on its ranges. -/

namespace Sys2Proof.Machine

open Sys2Proof.Spec

/-! ## The illegal command word (R202) -/

theorem decodeCommand_illegal {c : Word} (h1 : c ≠ 0x00000001#32) (h2 : c ≠ 0x00000002#32) (h3 : c ≠ 0x00000003#32) :
    decodeCommand c = .illegalCommand := by
  rw [decodeCommand, if_neg h1, if_neg h2, if_neg h3]

theorem writeCommand_of_illegal {c : Word} {s : State} (h : s.status.getLsbD 0 = false)
    (hc : decodeCommand c = .illegalCommand) : writeCommand c s = .next (s.raise .illegalCommand c) := by
  simp only [writeCommand, statusFault, h, hc, Bool.false_eq_true, if_false]

/-! ## The checks in their order (R209) -/

/-- The first address operand that is misaligned raises MISALIGNED, else the first range that ends above 2^32 raises
ADDRESS_WRAP, else the operation goes on to end in `rest` (R203, R204, R209). -/
def afterChecks (operands : List Word) (ranges : List (Word × Nat)) (s rest : State) : State :=
  match operands.find? isMisaligned, ranges.find? fun r => rangeWraps r.1 r.2 with
  | some a, _ => s.raise .misaligned a
  | none, some r => s.raise .addressWrap r.1
  | none, none => rest

theorem afterChecks_of_misaligned {operands : List Word} {a : Word} (h : operands.find? isMisaligned = some a)
    (ranges : List (Word × Nat)) (s rest : State) : afterChecks operands ranges s rest = s.raise .misaligned a := by
  simp only [afterChecks, h]

theorem afterChecks_of_wraps {operands : List Word} {ranges : List (Word × Nat)} {r : Word × Nat}
    (haligned : operands.find? isMisaligned = none) (h : ranges.find? (fun r => rangeWraps r.1 r.2) = some r)
    (s rest : State) : afterChecks operands ranges s rest = s.raise .addressWrap r.1 := by
  simp only [afterChecks, haligned, h]

@[simp] theorem afterChecks_nil (s rest : State) : afterChecks [] [] s rest = rest := rfl

@[simp] theorem afterChecks_operand (a : Word) (operands : List Word) (ranges : List (Word × Nat)) (s rest : State) :
    afterChecks (a :: operands) ranges s rest =
      if isMisaligned a then s.raise .misaligned a else afterChecks operands ranges s rest := by
  rw [afterChecks, List.find?_cons]
  cases isMisaligned a <;> rfl

@[simp] theorem afterChecks_range (r : Word × Nat) (ranges : List (Word × Nat)) (s rest : State) :
    afterChecks [] (r :: ranges) s rest =
      if rangeWraps r.1 r.2 then s.raise .addressWrap r.1 else afterChecks [] ranges s rest := by
  rw [afterChecks, List.find?_cons]
  cases rangeWraps r.1 r.2 <;> rfl

theorem roundOn_afterChecks (sb w : Word) (s : State) :
    ∃ rest, roundOn sb w s = afterChecks [sb] [(sb, 4168)] s rest := by
  simp only [afterChecks_operand, afterChecks_range, afterChecks_nil]
  exact ⟨_, rfl⟩

theorem dec64On_afterChecks (sb ba : Word) (s : State) :
    ∃ rest, dec64On sb ba s = afterChecks [sb, ba] [(sb, 4168), (ba, 8)] s rest := by
  simp only [afterChecks_operand, afterChecks_range, afterChecks_nil]
  exact ⟨_, rfl⟩

/-- With COUNT = 0 a MOVE has no range to check (R163). -/
theorem moveOn_afterChecks (mode : MoveMode) (src dst : Word) (count : Nat) (s : State) :
    ∃ rest, moveOn mode src dst count s = afterChecks [src, dst] (moveRanges src dst mode count) s rest := by
  rcases Nat.eq_zero_or_pos count with rfl | hpos
  · exact ⟨s.complete, by simp [moveOn, moveRanges]⟩
  · simp only [moveOn, if_neg hpos.ne', moveRanges_pos hpos, afterChecks_operand, afterChecks_range, afterChecks_nil]
    exact ⟨_, rfl⟩

/-- Every command whose registers are valid makes the checks of its own operands and ranges first (R209). -/
theorem exec_afterChecks {i : Instr} {s : State} {operands : List Word} (h : addressOperands i s = some operands) :
    ∃ rest, exec i s = .next (afterChecks operands (ranges i s) s rest) := by
  obtain ⟨⟨x, y⟩, hpair, hoperands⟩ := Option.map_eq_some_iff.1 h
  obtain ⟨hx, hy, hctrl⟩ := operandPair_eq_some hpair
  have ofForm : ∀ f, moveForm i s = some f → ∃ rest, exec i s = .next (afterChecks operands (ranges i s) s rest) := by
    rintro ⟨mode, count⟩ hform
    obtain rfl := Option.some.inj ((addressOperands_of_moveForm hx hy hform).symm.trans h)
    obtain ⟨rest, hrest⟩ := moveOn_afterChecks mode x y count s
    exact ⟨rest, by rw [exec_of_moveForm hx hy hform, ranges_of_moveForm hx hy hform, hrest]⟩
  cases i with
  | round =>
    obtain ⟨rest, hrest⟩ := roundOn_afterChecks x y s
    exact ⟨rest, by simp only [exec, execRound, ranges, hx, hy, hpair, hrest, ← hoperands, if_pos]⟩
  | dec64 =>
    obtain ⟨rest, hrest⟩ := dec64On_afterChecks x y s
    exact ⟨rest, by simp only [exec, execDec64, ranges, hx, hy, hpair, hrest, ← hoperands, reduceCtorEq, if_false]⟩
  | move =>
    obtain ⟨ctrl, harg⟩ := Option.ne_none_iff_exists'.1 (hctrl rfl)
    exact ofForm (controlForm ctrl) (by rw [moveForm, harg, Option.map_some])
  | moveCopy count => exact ofForm _ rfl
  | moveFill count => exact ofForm _ rfl

/-! ## The checks as arithmetic (R55, R56) -/

theorem isMisaligned_eq_decide : isMisaligned = fun a : Word => decide (a.toNat % 4 ≠ 0) :=
  funext fun a => Bool.eq_iff_iff.2 ((isMisaligned_iff a).trans decide_eq_true_iff.symm)

theorem find?_isMisaligned_of_aligned {operands : List Word} (h : ∀ a ∈ operands, a.toNat % 4 = 0) :
    operands.find? isMisaligned = none :=
  List.find?_eq_none.2 fun a ha => not_isMisaligned_of_aligned (h a ha)

end Sys2Proof.Machine

namespace Sys2Proof.Proofs

open Sys2Proof.Machine Sys2Proof.Spec

/-- Settles O7: STATUS.FAULT is not touched by taking the statement, and the word decodes to no command. -/
theorem illegalCommandRaises : Obligations.IllegalCommandRaises := by
  intro s u c h hfault h1 h2 h3
  have hstep : step s = writeCommand c u := step_writeRegister .cmd h
  obtain ⟨rest, -, rfl⟩ := next_iff.mp h
  exact ⟨_, hstep.trans (writeCommand_of_illegal hfault (decodeCommand_illegal h1 h2 h3)), preciseFault_raise _ _ c⟩

/-- Settles O23: the alignment checks stand first in every command, in the order of its operands. -/
theorem misalignedOperandRaises : Obligations.MisalignedOperandRaises := by
  intro i s operands a hoperands hfirst
  obtain ⟨rest, hexec⟩ := exec_afterChecks hoperands
  rw [afterChecks_of_misaligned (isMisaligned_eq_decide ▸ hfirst)] at hexec
  exact ⟨_, hexec, preciseFault_raise s .misaligned a⟩

/-- Settles O24: with the operands aligned the range checks stand first in every command, in the order of its ranges. -/
theorem wrappingRangeRaises : Obligations.WrappingRangeRaises := by
  rintro i s base bytes ⟨operands, hoperands, haligned⟩ hfirst
  obtain ⟨rest, hexec⟩ := exec_afterChecks hoperands
  rw [afterChecks_of_wraps (find?_isMisaligned_of_aligned haligned) hfirst] at hexec
  exact ⟨_, hexec, preciseFault_raise s .addressWrap base⟩

end Sys2Proof.Proofs
end

section
/-! PROOFS. The reset input (70_reset_and_hazards.md R230) and the faulted block, which every other statement leaves
faulted (60_exceptions.md R212). -/

namespace Sys2Proof.Machine

open Sys2Proof.Spec

/-! ## The step of the reset input (R230) -/

theorem step_resetInput {s u : State} (h : Next s .reset u) : step s = .next u.resetInput :=
  step_of_next h

/-! ## A faulted block (R212) -/

/-- Of the ways a write to CMD ends, the illegal word's and the command's need STATUS.FAULT = 0. -/
theorem CommandWrite.eq_of_faulted {c : Word} {s t : State} (h : CommandWrite c s t)
    (hfault : s.status.getLsbD 0 = true) : t = s := by
  cases h with
  | ignored _ => rfl
  | illegal hclear _ => exact absurd hfault (ne_true_of_eq_false hclear)
  | ran _ _ hclear _ _ _ => exact absurd hfault (ne_true_of_eq_false hclear)

/-- Only a write to CMD could change STATUS, and a faulted block ignores it. -/
theorem HostEffect.status_of_faulted {s t : State} (h : HostEffect s t) (hfault : s.status.getLsbD 0 = true) :
    t.status = s.status := by
  cases h with
  | kept | replied | readRefused | writeRefused | argsWritten | stored => rfl
  | commanded c _ hwrite => exact congrArg State.status (hwrite.eq_of_faulted hfault)

/-- A step of a faulted block takes the reset input or keeps STATUS. -/
theorem status_of_step_of_faulted {s t : State} (hfault : s.status.getLsbD 0 = true) (h : step s = .next t) :
    s.pending.head? = some .reset ∨ t.status = s.status := by
  obtain ⟨-, rfl⟩ | ⟨st, rest, hpending, heffect | ⟨rfl, -⟩⟩ := step_effect h
  · exact .inr rfl
  · exact .inr (heffect.status_of_faulted hfault)
  · exact .inl (congrArg List.head? hpending)

end Sys2Proof.Machine

namespace Sys2Proof.Proofs

open Sys2Proof.Machine Sys2Proof.Spec

/-- Settles O40: the step is `resetInput` on the state with the statement taken, and a step that takes another statement
from a faulted block keeps STATUS, and FAULT with it. -/
theorem resetInput : Obligations.ResetInput := by
  constructor
  · intro s u h
    have hstep : step s = .next u.resetInput := step_resetInput h
    obtain ⟨rest, -, rfl⟩ := next_iff.mp h
    exact ⟨_, hstep, ⟨rfl, rfl, rfl⟩, rfl, rfl, rfl, rfl, rfl, rfl, rfl, rfl, rfl, rfl, rfl⟩
  · intro s t hfault h hclear
    refine (status_of_step_of_faulted hfault h).resolve_right fun hkept => ?_
    exact ne_true_of_eq_false hclear (hkept ▸ hfault)

end Sys2Proof.Proofs
end

section
/-! PROOFS. The decoder against the encoder (30_encoding.md R80-R89): a command survives its encoding, and whatever
decodes is a command with an encoding. -/

namespace Sys2Proof

/-! ## The command words (R81) -/

/-- A command word that decodes is that of ROUND, of DEC64 or of MOVE. -/
theorem decodeCommand_eq_command {c : Word} {i : Instr} (h : decodeCommand c = .command i) :
    c = 0x00000001#32 ∧ i = .round ∨ c = 0x00000002#32 ∧ i = .dec64 ∨ c = 0x00000003#32 ∧ i = .move := by
  unfold decodeCommand at h
  split_ifs at h with h1 h2 h3
  · exact .inl ⟨h1, (Decoded.command.inj h).symm⟩
  · exact .inr (.inl ⟨h2, (Decoded.command.inj h).symm⟩)
  · exact .inr (.inr ⟨h3, (Decoded.command.inj h).symm⟩)

/-! ## Encoding, then decoding (R82) -/

theorem decode_encode {i : Instr} (h : WellFormed i = true) : decode (encode i) = .command i := by
  cases i with
  | round => rfl
  | dec64 => rfl
  | move => rfl
  | moveCopy count => rw [encode, decode_moveWord, decodeControl_copyWord (countFits_iff.1 h)]
  | moveFill count => rw [encode, decode_moveWord, decodeControl_fillWord (countFits_iff.1 h)]

/-! ## Decoding, then encoding (R82, R85) -/

/-- The COUNT of a control word can be spelled, since its bit 24 is masked out. -/
theorem countFits_controlCount (ctrl : Word) : countFits (controlCount ctrl) = true :=
  countFits_iff.2 ((getLsbD_controlCount ctrl (by decide)).trans (Bool.and_false _))

/-- Either mode of a control word is a well-formed form of MOVE. -/
theorem decodeControl_wellFormed (ctrl : Word) :
    WellFormed (decodeControl ctrl) = true ∧ (encode (decodeControl ctrl)).command = 0x00000003#32 := by
  unfold decodeControl
  split
  · exact ⟨countFits_controlCount ctrl, rfl⟩
  · exact ⟨countFits_controlCount ctrl, rfl⟩

theorem wellFormed_of_decode {e : Issue} {i : Instr} (h : decode e = .command i) :
    WellFormed i = true ∧ (encode i).command = e.command := by
  obtain ⟨c, control⟩ := e
  cases hc : decodeCommand c with
  | illegalCommand => simp [decode, hc] at h
  | command j =>
    rcases decodeCommand_eq_command hc with ⟨rfl, rfl⟩ | ⟨rfl, rfl⟩ | ⟨rfl, rfl⟩
    · cases h
      exact ⟨rfl, rfl⟩
    · cases h
      exact ⟨rfl, rfl⟩
    · cases control with
      | none =>
        cases h
        exact ⟨rfl, rfl⟩
      | some ctrl =>
        obtain rfl := Decoded.command.inj ((decode_moveWord ctrl).symm.trans h)
        exact decodeControl_wellFormed ctrl

end Sys2Proof

namespace Sys2Proof.Proofs

/-- Settles O1: a COUNT without bit 24 is read back from the control word of either mode. -/
theorem decodeOfEncode : Obligations.DecodeOfEncode := fun _ h => decode_encode h

/-- Settles O2: a decoded command is well formed, so its encoding decodes to it again. -/
theorem decodedCommandsAreEncodable : Obligations.DecodedCommandsAreEncodable := by
  intro e i h
  obtain ⟨hwf, hword⟩ := wellFormed_of_decode h
  exact ⟨hwf, decode_encode hwf, hword⟩

/-- Settles O4: every word of it is a literal, so the decoder runs. -/
theorem sampleWordsDecode : Obligations.SampleWordsDecode := by
  unfold Obligations.SampleWordsDecode
  decide

end Sys2Proof.Proofs
end

section
/-! PROOFS. What every step keeps (10_state.md R20-R28, R38, 60_exceptions.md R207, R210, R220): the fault registers
with their logs, the memory's canonical form and the platform, each said of the end of a command, of a write to CMD, of a
host statement and then of a step. -/

namespace Sys2Proof.Machine

open Sys2Proof.Spec

/-! ## The fault registers and the logs (R27, R28, R207, R210) -/

/-- The values of STATUS, FADDR, UNDEF and FAULTLOG. -/
abbrev State.FaultsAre (t : State) (status faddr : Word) (undef : UndefSet) (log : List (Cause × Word)) : Prop :=
  t.status = status ∧ t.faddr = faddr ∧ t.undef = undef ∧ t.faultLog = log

/-- A reason that ends an operation, which then leaves the registers undefined (R37, R200). -/
abbrev Reason.EndsOperation (r : Reason) : Prop := r = .undefinedOperand ∨ r = .precondition

/-- What can become of the fault registers and the logs: they are kept, the host's access is noted in UNDEF, a block fault
is recorded, a model fault ends an operation, or the reset input clears STATUS and FADDR. -/
inductive FaultEffect (s t : State) : Prop
  | kept (h : t.FaultsAre s.status s.faddr s.undef s.faultLog)
  | noted (r : Reason) (hr : ¬r.EndsOperation) (h : t.FaultsAre s.status s.faddr (s.undef.insert r) s.faultLog)
  | raised (c : Cause) (info : Word) (h : t.FaultsAre (statusOf c) info s.undef (s.faultLog ++ [(c, info)]))
  | undefined (r : Reason) (hr : r.EndsOperation) (draw info : Word)
      (h : t.FaultsAre (statusOfDraw draw) info (s.undef.insert r) s.faultLog)
  | reset (h : t.FaultsAre 0#32 0#32 s.undef s.faultLog)

theorem CommandEnd.faultEffect {s t : State} (h : CommandEnd s t) : FaultEffect s t := by
  cases h with
  | completed u hsteps | completedWith u v hsteps =>
    obtain ⟨xs, m, rfl, -, -⟩ := hsteps
    exact .kept ⟨rfl, rfl, rfl, rfl⟩
  | faulted u c info hsteps _ =>
    obtain ⟨xs, m, rfl, -, -⟩ := hsteps
    exact .raised c info ⟨rfl, rfl, rfl, rfl⟩
  | busFaulted u a base count hsteps =>
    obtain ⟨xs, m, rfl, -, -⟩ := hsteps
    exact .raised .busError a ⟨rfl, rfl, rfl, rfl⟩
  | undefined t hends =>
    rcases hends with rfl | rfl
    · exact .undefined .undefinedOperand (.inl rfl) _ _ ⟨rfl, rfl, rfl, rfl⟩
    · exact .undefined .precondition (.inr rfl) _ _ ⟨rfl, rfl, rfl, rfl⟩

theorem CommandWrite.faultEffect {c : Word} {s t : State} (h : CommandWrite c s t) : FaultEffect s t := by
  cases h with
  | ignored _ => exact .kept ⟨rfl, rfl, rfl, rfl⟩
  | illegal _ _ => exact .raised .illegalCommand c ⟨rfl, rfl, rfl, rfl⟩
  | ran _ _ _ _ _ hend => exact hend.faultEffect

theorem HostEffect.faultEffect {s t : State} (h : HostEffect s t) : FaultEffect s t := by
  cases h with
  | kept => exact .kept ⟨rfl, rfl, rfl, rfl⟩
  | replied v => exact .kept ⟨rfl, rfl, rfl, rfl⟩
  | readRefused => exact .noted .hostUndefinedRead (by decide) ⟨rfl, rfl, rfl, rfl⟩
  | writeRefused => exact .noted .hostUndefinedWrite (by decide) ⟨rfl, rfl, rfl, rfl⟩
  | argsWritten x y z => exact .kept ⟨rfl, rfl, rfl, rfl⟩
  | stored m _ => exact .kept ⟨rfl, rfl, rfl, rfl⟩
  | commanded c t hwrite => exact hwrite.faultEffect

/-- The statement a step takes is no part of the fault registers. -/
theorem FaultEffect.of_pending {s t : State} {rest : List HostStmt} (h : FaultEffect { s with pending := rest } t) :
    FaultEffect s t := by
  cases h with
  | kept h => exact .kept h
  | noted r hr h => exact .noted r hr h
  | raised c info h => exact .raised c info h
  | undefined r hr draw info h => exact .undefined r hr draw info h
  | reset h => exact .reset h

theorem step_faultEffect {s t : State} (h : step s = .next t) : FaultEffect s t := by
  obtain ⟨-, rfl⟩ | ⟨st, rest, -, heffect | ⟨-, rfl⟩⟩ := step_effect h
  · exact .kept ⟨rfl, rfl, rfl, rfl⟩
  · exact heffect.faultEffect.of_pending
  · exact .reset ⟨rfl, rfl, rfl, rfl⟩

/-! ## The invariants of the fault registers -/

theorem statusLegal_statusOf (c : Cause) : statusLegal (statusOf c) = true := by
  cases c <;> rfl

/-- Every bit pattern of a draw picks zero or a cause's value (log 7). -/
theorem statusLegal_statusOfDraw (draw : Word) : statusLegal (statusOfDraw draw) = true := by
  unfold statusOfDraw
  split_ifs
  · exact statusLegal_statusOf .busError
  · exact statusLegal_statusOf .addressWrap
  · exact statusLegal_statusOf .misaligned
  · exact statusLegal_statusOf .illegalCommand
  · rfl

theorem FaultEffect.statusLegal {s t : State} (h : FaultEffect s t) (hs : statusLegal s.status = true) :
    statusLegal t.status = true := by
  cases h with
  | kept h => exact h.1 ▸ hs
  | noted r _ h => exact h.1 ▸ hs
  | raised c info h => exact h.1 ▸ statusLegal_statusOf c
  | undefined r _ draw info h => exact h.1 ▸ statusLegal_statusOfDraw draw
  | reset h => exact h.1 ▸ rfl

/-- Only a reason that ends an operation takes the registers' meaning away. -/
theorem defined_insert_iff {u : UndefSet} {r : Reason} :
    (u.insert r).undefinedOperand = false ∧ (u.insert r).precondition = false ↔
      ¬r.EndsOperation ∧ u.undefinedOperand = false ∧ u.precondition = false := by
  cases r <;> simp [UndefSet.insert]

theorem FaultEffect.faultInv {s t : State} (h : FaultEffect s t) (hs : FaultInv s) : FaultInv t := by
  intro hdefined
  cases h with
  | kept h =>
    obtain ⟨hstatus, hfaddr, hundef, hlog⟩ := h
    rw [State.Defined, hundef] at hdefined
    rw [State.FaultRecorded, hstatus, hfaddr, hlog]
    exact hs hdefined
  | noted r _ h =>
    obtain ⟨hstatus, hfaddr, hundef, hlog⟩ := h
    rw [State.Defined, hundef, defined_insert_iff] at hdefined
    rw [State.FaultRecorded, hstatus, hfaddr, hlog]
    exact hs hdefined.2
  | raised c info h =>
    obtain ⟨hstatus, hfaddr, -, hlog⟩ := h
    exact .inr ⟨c, info, by rw [hlog, List.getLast?_concat], hstatus, hfaddr⟩
  | undefined r hr draw info h =>
    obtain ⟨-, -, hundef, -⟩ := h
    rw [State.Defined, hundef, defined_insert_iff] at hdefined
    exact absurd hr hdefined.1
  | reset h =>
    obtain ⟨hstatus, hfaddr, -, -⟩ := h
    exact .inl ⟨hstatus, hfaddr⟩

/-! ## The logs (R207, R210, R220) -/

/-- UNDEF and FAULTLOG hold what they held, and FAULTLOG at most one entry more. -/
def LogsGrow (s t : State) : Prop :=
  s.faultLog <+: t.faultLog ∧ t.faultLog.length ≤ s.faultLog.length + 1 ∧
    ∀ r : Reason, s.undef.has r = true → t.undef.has r = true

theorem UndefSet.has_insert_of_has {u : UndefSet} {q : Reason} (h : u.has q = true) (r : Reason) :
    (u.insert r).has q = true := by
  rw [UndefSet.has_insert, h, Bool.or_true]

theorem FaultEffect.faultLog_eq_or_concat {s t : State} (h : FaultEffect s t) :
    t.faultLog = s.faultLog ∨ ∃ e, t.faultLog = s.faultLog ++ [e] := by
  cases h with
  | kept h | noted _ _ h | undefined _ _ _ _ h | reset h =>
    obtain ⟨-, -, -, hlog⟩ := h
    exact .inl hlog
  | raised c info h =>
    obtain ⟨-, -, -, hlog⟩ := h
    exact .inr ⟨(c, info), hlog⟩

theorem FaultEffect.undef_eq_or_insert {s t : State} (h : FaultEffect s t) :
    t.undef = s.undef ∨ ∃ r, t.undef = s.undef.insert r := by
  cases h with
  | kept h | raised _ _ h | reset h =>
    obtain ⟨-, -, hundef, -⟩ := h
    exact .inl hundef
  | noted r _ h | undefined r _ _ _ h =>
    obtain ⟨-, -, hundef, -⟩ := h
    exact .inr ⟨r, hundef⟩

theorem FaultEffect.logsGrow {s t : State} (h : FaultEffect s t) : LogsGrow s t := by
  refine ⟨?earlier, ?length, fun q hq => ?reasons⟩
  case earlier =>
    obtain hlog | ⟨e, hlog⟩ := h.faultLog_eq_or_concat
    · exact ⟨[], (List.append_nil _).trans hlog.symm⟩
    · exact ⟨[e], hlog.symm⟩
  case length =>
    obtain hlog | ⟨e, hlog⟩ := h.faultLog_eq_or_concat
    · exact hlog ▸ Nat.le_succ _
    · exact hlog ▸ List.length_append.le
  case reasons =>
    obtain hundef | ⟨r, hundef⟩ := h.undef_eq_or_insert
    · exact hundef ▸ hq
    · exact hundef ▸ UndefSet.has_insert_of_has hq r

/-- Empty logs were empty before. -/
theorem LogsGrow.clean {s t : State} (h : LogsGrow s t) (ht : t.Clean) : s.Clean := by
  obtain ⟨⟨later, hlog⟩, -, hundef⟩ := h
  obtain ⟨htlog, htundef⟩ := ht
  rw [UndefSet.isEmpty_iff] at htundef
  refine ⟨(List.append_eq_nil_iff.1 (hlog.trans htlog)).1, (UndefSet.isEmpty_iff _).2 fun r => ?_⟩
  exact Bool.eq_false_iff.2 fun hr => ne_true_of_eq_false (htundef r) (hundef r hr)

theorem clean_of_run {k : Nat} {s t : State} (h : core.run k s = .next t) (ht : t.Clean) : s.Clean := by
  induction k generalizing s with
  | zero => exact Host.Outcome.next.inj h ▸ ht
  | succ k ih =>
    cases hs : step s with
    | next u => exact (step_faultEffect hs).logsGrow.clean (ih ((run_next hs).symm.trans h))
    | fault r => exact nomatch (run_fault hs).symm.trans h
    | refused r => exact nomatch (run_refused hs).symm.trans h

/-! ## The canonical form of memory (log 4) -/

theorem CommandEnd.wf {s t : State} (h : CommandEnd s t) (hs : s.mem.wf) : t.mem.wf := by
  cases h with
  | completed u hsteps | completedWith u v hsteps | faulted u c info hsteps _ =>
    obtain ⟨xs, m, rfl, -, hm⟩ := hsteps
    exact hm hs
  | busFaulted u a base count hsteps =>
    obtain ⟨xs, m, rfl, -, hm⟩ := hsteps
    exact wf_drawWords _ _ base count (hm hs)
  | undefined t hends =>
    rcases hends with rfl | rfl
    · exact Memory.wf_empty _
    · exact Memory.wf_empty _

theorem CommandWrite.wf {c : Word} {s t : State} (h : CommandWrite c s t) (hs : s.mem.wf) : t.mem.wf := by
  cases h with
  | ignored _ => exact hs
  | illegal _ _ => exact hs
  | ran _ _ _ _ _ hend => exact hend.wf hs

theorem HostEffect.wf {s t : State} (h : HostEffect s t) (hs : s.mem.wf) : t.mem.wf := by
  cases h with
  | kept | replied | readRefused | writeRefused | argsWritten => exact hs
  | stored m hm => exact hm hs
  | commanded c t hwrite => exact hwrite.wf hs

/-! ## The host's side (R5, R63, R87) -/

theorem CommandEnd.hostKept {s t : State} (h : CommandEnd s t) : HostKept s t := by
  cases h with
  | completed u hsteps | completedWith u v hsteps | faulted u c info hsteps _ | busFaulted u a base count hsteps =>
    obtain ⟨xs, m, rfl, -, -⟩ := hsteps
    exact ⟨rfl, rfl, rfl⟩
  | undefined t hends =>
    rcases hends with rfl | rfl
    · exact ⟨rfl, rfl, rfl⟩
    · exact ⟨rfl, rfl, rfl⟩

theorem CommandWrite.hostKept {c : Word} {s t : State} (h : CommandWrite c s t) : HostKept s t := by
  cases h with
  | ignored _ => exact ⟨rfl, rfl, rfl⟩
  | illegal _ _ => exact ⟨rfl, rfl, rfl⟩
  | ran _ _ _ _ _ hend => exact hend.hostKept

/-- A statement changes neither the platform nor the statements after it. -/
theorem HostEffect.platform_pending {s t : State} (h : HostEffect s t) :
    t.platform = s.platform ∧ t.pending = s.pending := by
  cases h with
  | kept | replied | readRefused | writeRefused | argsWritten | stored => exact ⟨rfl, rfl⟩
  | commanded c t hwrite =>
    obtain ⟨hplatform, hpending, -⟩ := hwrite.hostKept
    exact ⟨hplatform, hpending⟩

end Sys2Proof.Machine

namespace Sys2Proof.Proofs

open Sys2Proof.Machine Sys2Proof.Spec

/-- Settles O42: the values a step can give STATUS are the one it had, zero, a cause's and a draw's. -/
theorem statusStaysLegal : Obligations.StatusStaysLegal := fun _ _ hs h => (step_faultEffect h).statusLegal hs

/-- Settles O43: a byte written keeps the form, and memory changes only by writes of bytes or becomes a fresh draw. -/
theorem memoryStaysCanonical : Obligations.MemoryStaysCanonical := by
  intro s t hs h
  obtain ⟨-, rfl⟩ | ⟨st, rest, -, heffect | ⟨-, rfl⟩⟩ := step_effect h
  · exact hs
  · exact heffect.wf hs
  · exact hs

/-- Settles O44: STATUS, FADDR and FAULTLOG change together, at a block fault, or STATUS and FADDR are cleared. -/
theorem faultRegistersAgreeWithTheLog : Obligations.FaultRegistersAgreeWithTheLog :=
  fun _ _ hs h => (step_faultEffect h).faultInv hs

/-- Settles O51: FAULTLOG changes only by an entry put at its end, and UNDEF only by a reason put in. -/
theorem logsOnlyGrow : Obligations.LogsOnlyGrow := fun _ _ h => (step_faultEffect h).logsGrow

/-- Settles O46: logs that only grow were empty before if they are empty, back along each of the runs' steps. -/
theorem cleanEndMeansCleanRun : Obligations.CleanEndMeansCleanRun := by
  intro n k s u t hn hk ht
  have hu : u.Clean := clean_of_run hk ht
  exact ⟨hu, clean_of_run hn hu⟩

/-- Settles O47: a step takes the first pending statement, which changes neither the platform nor the ones after it. -/
theorem stepsKeepThePlatform : Obligations.StepsKeepThePlatform := by
  intro s t h
  obtain ⟨hidle, rfl⟩ | ⟨st, rest, hpending, heffect | ⟨-, rfl⟩⟩ := step_effect h
  · exact ⟨rfl, by rw [hidle, List.tail_nil]⟩
  · rw [hpending]
    exact heffect.platform_pending
  · rw [hpending]
    exact ⟨rfl, rfl⟩

/-- Settles O33: every command ends in one of the ways of `CommandEnd`, of which only a block fault is logged. -/
theorem commandsLeaveTheHostAlone : Obligations.CommandsLeaveTheHostAlone := by
  intro i s
  obtain ⟨t, hexec, hend⟩ := exec_ends i s
  exact ⟨t, hexec, hend.hostKept, hend.faultEffect.faultLog_eq_or_concat⟩

/-- Settles O45: the start of a run differs from the state after reset in the platform, the memory and the statements. -/
theorem runsStartInTheResetState : Obligations.RunsStartInTheResetState := by
  intro p m program
  exact ⟨⟨rfl, rfl, rfl⟩, rfl, rfl, rfl, ⟨rfl, rfl⟩, rfl, rfl, fun _ => .inl ⟨rfl, rfl⟩, Memory.wf_empty _⟩

end Sys2Proof.Proofs
end

section
/-! PROOFS. The write to CMD and the ways a command ends (10_state.md R25, R26, R36, 60_exceptions.md R200-R212): the
operation each command runs, what it leaves in RESULT and the argument registers, and the model faults. -/

namespace Sys2Proof.Machine

open Sys2Proof.Spec

/-! ## The write to CMD (R26, R212) -/

theorem writeCommand_of_faulted {c : Word} {s : State} (h : s.status.getLsbD 0 = true) :
    writeCommand c s = .next s := if_pos h

/-- With STATUS.FAULT = 0 the command issued runs, a MOVE in the mode of its control word (R26, R160). -/
theorem writeCommand_of_decode {c : Word} {i : Instr} {s : State} (h : s.status.getLsbD 0 = false)
    (hd : decode ⟨c, s.arg2.get?⟩ = .command i) : writeCommand c s = exec i s := by
  cases hc : decodeCommand c with
  | illegalCommand => simp [decode, hc] at hd
  | command j =>
    rw [writeCommand_of_command h hc]
    rcases decodeCommand_eq_command hc with ⟨rfl, rfl⟩ | ⟨rfl, rfl⟩ | ⟨rfl, rfl⟩
    · cases hd
      rfl
    · cases hd
      rfl
    · cases hctrl : s.arg2.get? with
      | none =>
        rw [hctrl] at hd
        cases hd
        rfl
      | some ctrl =>
        rw [hctrl, decode_moveWord] at hd
        obtain rfl := Decoded.command.inj hd
        exact exec_move_of_control hctrl

/-- While FAULT = 1 a statement other than the reset input touches neither the fault registers nor RESULT, and makes no
access of the block. -/
theorem HostEffect.kept_of_faulted {s t : State} (h : HostEffect s t) (hfault : s.status.getLsbD 0 = true) :
    t.status = s.status ∧ t.faddr = s.faddr ∧ t.faultLog = s.faultLog ∧ t.result = s.result ∧ t.trace = s.trace := by
  cases h with
  | kept | replied | readRefused | writeRefused | argsWritten | stored => exact ⟨rfl, rfl, rfl, rfl, rfl⟩
  | commanded c t hwrite =>
    obtain rfl := hwrite.eq_of_faulted hfault
    exact ⟨rfl, rfl, rfl, rfl, rfl⟩

/-! ## The operation a command runs (R84, R160) -/

/-- With the registers it reads valid, a command is ROUND, DEC64 or a form of MOVE on the values of ARG0 and ARG1. -/
theorem exec_of_operandPair {i : Instr} {s : State} {x y : Word} (h : operandPair i s = some (x, y)) :
    i = .round ∧ exec i s = .next (roundOn x y s) ∨
    i = .dec64 ∧ exec i s = .next (dec64On x y s) ∨
    ∃ mode count, moveForm i s = some (mode, count) ∧ exec i s = .next (moveOn mode x y count s) := by
  obtain ⟨hx, hy, hctrl⟩ := operandPair_eq_some h
  have ofForm : ∀ f, moveForm i s = some f → ∃ mode count, moveForm i s = some (mode, count) ∧
      exec i s = .next (moveOn mode x y count s) :=
    fun f hform => ⟨f.1, f.2, hform, exec_of_moveForm hx hy hform⟩
  cases i with
  | round => exact .inl ⟨rfl, by simp only [exec, execRound, hx, hy]⟩
  | dec64 => exact .inr (.inl ⟨rfl, by simp only [exec, execDec64, hx, hy]⟩)
  | move =>
    obtain ⟨ctrl, harg⟩ := Option.ne_none_iff_exists'.1 (hctrl rfl)
    exact .inr (.inr (ofForm (controlForm ctrl) (by rw [moveForm, harg, Option.map_some])))
  | moveCopy count => exact .inr (.inr (ofForm _ rfl))
  | moveFill count => exact .inr (.inr (ofForm _ rfl))

/-- A model fault of an operand or of a precondition makes no access and records no block fault (R206, R207). -/
theorem modelFault_undefine (s : State) (r : Reason) : ModelFault s (s.undefine r) r :=
  ⟨rfl, rfl, rfl, rfl, rfl, rfl⟩

/-! ## The argument registers (R36) -/

theorem CommandEnd.argsInvalid {s t : State} (h : CommandEnd s t) (ht : ¬EndsUndefined s t) : ArgsInvalid t := by
  cases h with
  | completed | completedWith | faulted | busFaulted => exact ⟨rfl, rfl, rfl⟩
  | undefined t hends => exact absurd hends ht

theorem CommandWrite.argsInvalid {c : Word} {s t : State} (h : CommandWrite c s t) (hs : s.status.getLsbD 0 = false)
    (ht : ¬EndsUndefined s t) : ArgsInvalid t := by
  cases h with
  | ignored hfault => exact absurd hfault (ne_true_of_eq_false hs)
  | illegal _ _ => exact ⟨rfl, rfl, rfl⟩
  | ran _ _ _ _ _ hend => exact hend.argsInvalid ht

theorem operandPair_of_argsInvalid {s : State} (h : ArgsInvalid s) (i : Instr) : operandPair i s = none := by
  obtain ⟨harg0, -, -⟩ := h
  simp [operandPair, harg0]

/-! ## RESULT (R25) -/

/-- ROUND on valid operands ends with a block fault recorded and RESULT invalid, or with RESULT valid and no fault. -/
theorem roundOn_result (sb w : Word) (s : State) :
    (∃ e, (roundOn sb w s).faultLog = s.faultLog ++ [e]) ∧ (roundOn sb w s).result.get? = none ∨
    (roundOn sb w s).faultLog = s.faultLog ∧ ∃ v, (roundOn sb w s).result.get? = some v := by
  unfold roundOn
  split_ifs
  · exact .inl ⟨⟨_, rfl⟩, rfl⟩
  · exact .inl ⟨⟨_, rfl⟩, rfl⟩
  · have hlog : (feistel sb w s).state.faultLog = s.faultLog := by
      obtain ⟨xs, m, hstate, -, -⟩ := feistel_steps sb w s
      rw [hstate]
      rfl
    split <;> rename_i heq <;> rw [heq] at hlog
    · exact .inr ⟨hlog, _, rfl⟩
    · exact .inl ⟨⟨_, congrArg (· ++ _) hlog⟩, rfl⟩

theorem dec64On_result (sb ba : Word) (s : State) :
    EndsUndefined s (dec64On sb ba s) ∨ (dec64On sb ba s).result.get? = none := by
  unfold dec64On
  split_ifs
  · exact .inr rfl
  · exact .inr rfl
  · exact .inr rfl
  · exact .inr rfl
  · exact .inl (.inr rfl)
  · split
    · exact .inr rfl
    · exact .inr rfl

theorem moveOn_result (mode : MoveMode) (src dst : Word) (count : Nat) (s : State) :
    EndsUndefined s (moveOn mode src dst count s) ∨ (moveOn mode src dst count s).result.get? = none := by
  unfold moveOn
  split_ifs
  · exact .inr rfl
  · exact .inr rfl
  · exact .inr rfl
  · exact .inr rfl
  · exact .inr rfl
  · exact .inl (.inr rfl)
  · split
    · exact .inr rfl
    · exact .inr rfl

/-- A command whose registers are defined at its end leaves RESULT valid exactly when it is a ROUND without a fault. -/
theorem exec_result_isSome_iff {i : Instr} {s t : State} (h : exec i s = .next t) (ht : ¬EndsUndefined s t) :
    t.result.get?.isSome = true ↔ i = .round ∧ t.faultLog = s.faultLog := by
  cases hpair : operandPair i s with
  | none =>
    obtain rfl := Host.Outcome.next.inj ((exec_of_operandPair_none hpair).symm.trans h)
    exact absurd (.inl rfl) ht
  | some o =>
    have others : i ≠ .round → t.result.get? = none →
        (t.result.get?.isSome = true ↔ i = .round ∧ t.faultLog = s.faultLog) := by
      intro hi hresult
      simp [hi, hresult]
    obtain ⟨x, y⟩ := o
    obtain ⟨rfl, hexec⟩ | ⟨rfl, hexec⟩ | ⟨mode, count, hform, hexec⟩ := exec_of_operandPair hpair
    · obtain rfl := Host.Outcome.next.inj (hexec.symm.trans h)
      obtain ⟨⟨e, hlog⟩, hresult⟩ | ⟨hlog, v, hresult⟩ := roundOn_result x y s
      · simp [hlog, hresult]
      · simp [hlog, hresult]
    · obtain rfl := Host.Outcome.next.inj (hexec.symm.trans h)
      exact others (nofun) ((dec64On_result x y s).resolve_left ht)
    · obtain rfl := Host.Outcome.next.inj (hexec.symm.trans h)
      refine others ?_ ((moveOn_result mode x y count s).resolve_left ht)
      rintro rfl
      cases hform

/-! ## Block faults (R201, R210) -/

theorem statusOf_fault (c : Cause) : (statusOf c).getLsbD 0 = true := by
  cases c <;> decide

/-- Where a write to CMD records a block fault it raised that fault, from FAULT = 0 and at a point where UNDEF and
FAULTLOG were still the same; it is ILLEGAL_COMMAND exactly for a word that is no command (R202). -/
theorem CommandWrite.raised {c : Word} {s t : State} {cause : Cause} {info : Word} (h : CommandWrite c s t)
    (hlog : t.faultLog = s.faultLog ++ [(cause, info)]) :
    s.status.getLsbD 0 = false ∧ (cause = .illegalCommand ↔ decodeCommand c = .illegalCommand) ∧
      ∃ u : State, t = u.raise cause info ∧ u.faultLog = s.faultLog ∧ u.undef = s.undef := by
  have unchanged : t.faultLog ≠ s.faultLog := by simp [hlog]
  cases h with
  | ignored _ => exact absurd rfl unchanged
  | illegal hs hc =>
    obtain ⟨rfl, rfl⟩ : Cause.illegalCommand = cause ∧ c = info := by simpa using hlog
    exact ⟨hs, iff_of_true rfl hc, s, rfl, rfl, rfl⟩
  | ran i t hs hc _ hend =>
    have legal : decodeCommand c ≠ .illegalCommand := by simp [hc]
    cases hend with
    | completed u hsteps | completedWith u v hsteps =>
      obtain ⟨xs, m, rfl, -, -⟩ := hsteps
      exact absurd rfl unchanged
    | faulted u c' info' hsteps hc' =>
      obtain ⟨xs, m, rfl, -, -⟩ := hsteps
      obtain ⟨rfl, rfl⟩ : c' = cause ∧ info' = info := by simpa using hlog
      exact ⟨hs, iff_of_false hc' legal, _, rfl, rfl, rfl⟩
    | busFaulted u a base count hsteps =>
      obtain ⟨xs, m, rfl, -, -⟩ := hsteps
      obtain ⟨rfl, rfl⟩ : Cause.busError = cause ∧ a = info := by simpa using hlog
      exact ⟨hs, iff_of_false (nofun) legal, _, rfl, rfl, rfl⟩
    | undefined t hends =>
      rcases hends with rfl | rfl
      · exact absurd rfl unchanged
      · exact absurd rfl unchanged

/-! ## Overlapping ranges (R135, R164) -/

/-- Past its alignment and range checks DEC64 ends in PRECONDITION where its ranges overlap, and otherwise is its block
decryption, which can meet a bus error (R130, R209). -/
theorem dec64On_inRange {sb ba : Word} (s : State) (hsb : sb.toNat % 4 = 0) (hba : ba.toNat % 4 = 0)
    (hsbRange : sb.toNat + 4168 ≤ 2 ^ 32) (hbaRange : ba.toNat + 8 ≤ 2 ^ 32) :
    (sb.toNat < ba.toNat + 8 ∧ ba.toNat < sb.toNat + 4168 → dec64On sb ba s = s.undefine .precondition) ∧
    (¬(sb.toNat < ba.toNat + 8 ∧ ba.toNat < sb.toNat + 4168) → ∀ a t, decryptBlock sb ba s = .bus a t →
      dec64On sb ba s = (t.unspecify ba 2).raise .busError a) := by
  have hwrapSb : ¬rangeWraps sb scheduleBytes = true := by rw [rangeWraps_iff, scheduleBytes]; omega
  have hwrapBa : ¬rangeWraps ba blockBytes = true := by rw [rangeWraps_iff, blockBytes]; omega
  have hover : rangesOverlap ba blockBytes sb scheduleBytes = true ↔
      sb.toNat < ba.toNat + 8 ∧ ba.toNat < sb.toNat + 4168 := (rangesOverlap_iff ..).trans and_comm
  rw [dec64On, if_neg (not_isMisaligned_of_aligned hsb), if_neg (not_isMisaligned_of_aligned hba), if_neg hwrapSb,
    if_neg hwrapBa]
  exact ⟨fun h => if_pos (hover.2 h), fun h a t hrun => by rw [if_neg (mt hover.1 h), hrun]⟩

theorem moveOn_overlapped {mode : MoveMode} {src dst : Word} {count : Nat} {s : State} (hpos : 0 < count)
    (hsrc : src.toNat % 4 = 0) (hdst : dst.toNat % 4 = 0) (hsrcRange : src.toNat + sourceBytes mode count ≤ 2 ^ 32)
    (hdstRange : dst.toNat + 4 * count ≤ 2 ^ 32)
    (hoverlap : src.toNat < dst.toNat + 4 * count ∧ dst.toNat < src.toNat + sourceBytes mode count) :
    moveOn mode src dst count s = s.undefine .precondition := by
  have hwrapSrc : ¬rangeWraps src (sourceBytes mode count) = true := by rw [rangeWraps_iff]; omega
  have hwrapDst : ¬rangeWraps dst (4 * count) = true := by rw [rangeWraps_iff]; omega
  have hover : rangesOverlap src (sourceBytes mode count) dst (4 * count) = true := (rangesOverlap_iff ..).2 hoverlap
  rw [moveOn, if_neg (not_isMisaligned_of_aligned hsrc), if_neg (not_isMisaligned_of_aligned hdst), if_neg hpos.ne',
    if_neg hwrapSrc, if_neg hwrapDst, if_pos hover]

/-- Overlapping ranges of a command whose other checks pass end it in PRECONDITION. -/
theorem exec_overlapped {i : Instr} {s : State} (haligned : Aligned i s) (hinRange : InRange i s)
    (hoverlap : Overlap i s) : exec i s = .next (s.undefine .precondition) := by
  obtain ⟨ops, hops, haligned⟩ := haligned
  obtain ⟨⟨x, y⟩, hpair, hoperands⟩ := Option.map_eq_some_iff.1 hops
  obtain ⟨hx, hy, -⟩ := operandPair_eq_some hpair
  obtain ⟨rfl, -⟩ | ⟨rfl, hexec⟩ | ⟨mode, count, hform, hexec⟩ := exec_of_operandPair hpair
  · simp [Overlap, ranges, hpair] at hoverlap
  · obtain rfl : [x, y] = ops := hoperands
    have hranges : ranges .dec64 s = [(x, 4168), (y, 8)] := by simp only [ranges, hpair]
    simp only [InRange, Overlap, hranges, List.forall_mem_cons] at haligned hinRange hoverlap
    obtain ⟨hx4, hy4, -⟩ := haligned
    obtain ⟨hxRange, hyRange, -⟩ := hinRange
    rw [hexec, (dec64On_inRange s hx4 hy4 hxRange hyRange).1 hoverlap]
  · obtain rfl := Option.some.inj ((addressOperands_of_moveForm hx hy hform).symm.trans hops)
    rcases Nat.eq_zero_or_pos count with rfl | hpos
    · simp [Overlap, ranges_of_moveForm hx hy hform, moveRanges] at hoverlap
    · simp only [InRange, Overlap, ranges_of_moveForm hx hy hform, moveRanges_pos hpos,
        List.forall_mem_cons] at haligned hinRange hoverlap
      obtain ⟨hx4, hy4, -⟩ := haligned
      obtain ⟨hxRange, hyRange, -⟩ := hinRange
      rw [hexec, moveOn_overlapped hpos hx4 hy4 hxRange hyRange hoverlap]

end Sys2Proof.Machine

namespace Sys2Proof.Proofs

open Sys2Proof.Machine Sys2Proof.Spec

/-- Settles O5: the step is the write to CMD on the state with the statement taken, whose STATUS and ARG2 are the same. -/
theorem stepRunsTheDecodedCommand : Obligations.StepRunsTheDecodedCommand := by
  intro s u c i h hfault hdecode
  have hstep : step s = writeCommand c u := step_writeRegister .cmd h
  obtain ⟨rest, -, rfl⟩ := next_iff.mp h
  exact hstep.trans (writeCommand_of_decode hfault hdecode)

/-- Settles O6: the write to CMD looks at STATUS.FAULT before anything else. -/
theorem faultedBlockIgnoresCommands : Obligations.FaultedBlockIgnoresCommands := by
  intro s u c h hfault
  have hstep : step s = writeCommand c u := step_writeRegister .cmd h
  obtain ⟨rest, -, rfl⟩ := next_iff.mp h
  exact hstep.trans (writeCommand_of_faulted hfault)

/-- Settles O41: of the statements but the reset input only a write to CMD could do any of this, and it is ignored. -/
theorem faultsStayUntilReset : Obligations.FaultsStayUntilReset := by
  intro s t hfault hhead h
  obtain ⟨-, rfl⟩ | ⟨st, rest, hpending, heffect | ⟨rfl, -⟩⟩ := step_effect h
  · exact ⟨rfl, rfl, rfl, rfl, rfl⟩
  · exact heffect.kept_of_faulted hfault
  · exact absurd (congrArg List.head? hpending) hhead

/-- Settles O29: completing and raising a block fault both make the argument registers invalid. -/
theorem argumentsEndInvalid : Obligations.ArgumentsEndInvalid := by
  intro c s
  obtain ⟨t, hexec, hwrite⟩ := writeCommand_ends c s
  exact ⟨t, hexec, fun hclear => or_iff_not_imp_left.2 (hwrite.argsInvalid hclear), hwrite.eq_of_faulted⟩

/-- Settles O30: of the ends of a command only the completion of ROUND writes RESULT, and a ROUND that does not complete
logs a fault. -/
theorem onlyCompletedRoundMakesResultValid : Obligations.OnlyCompletedRoundMakesResultValid := by
  intro c s t hclear h ht
  cases writeCommand_inv h with
  | ignored hfault => exact absurd hfault (ne_true_of_eq_false hclear)
  | illegal _ _ => simp
  | ran i t _ hc hexec _ =>
    have hround : i = .round ↔ c = 0x00000001#32 := by
      rcases decodeCommand_eq_command hc with ⟨rfl, rfl⟩ | ⟨rfl, rfl⟩ | ⟨rfl, rfl⟩ <;> decide
    rw [exec_result_isSome_iff hexec ht, hround]

/-- Settles O31: every command reads ARG0, which the command before left invalid. -/
theorem staleArgumentsAreUndefined : Obligations.StaleArgumentsAreUndefined := by
  intro c c' s t hs h ht htclear hlegal
  have hargs : ArgsInvalid t := (writeCommand_inv h).argsInvalid hs ht
  cases hc : decodeCommand c' with
  | illegalCommand => exact absurd hc hlegal
  | command i =>
    have hexec := exec_of_operandPair_none (operandPair_of_argsInvalid hargs i)
    exact ⟨_, (writeCommand_of_command htclear hc).trans hexec, modelFault_undefine t .undefinedOperand⟩

/-- Settles O27: a command without its operands ends in UNDEFINED_OPERAND before any check. -/
theorem invalidOperandIsAModelFault : Obligations.InvalidOperandIsAModelFault := by
  intro i s h
  exact ⟨_, exec_of_operandPair_none (Option.map_eq_none_iff.1 h), modelFault_undefine s .undefinedOperand⟩

/-- Settles O28: the test for an overlap comes right after the range checks, before any access. -/
theorem overlapIsAModelFault : Obligations.OverlapIsAModelFault := by
  intro i s haligned hinRange hoverlap
  exact ⟨_, exec_overlapped haligned hinRange hoverlap, modelFault_undefine s .precondition⟩

/-- Settles O50: an entry of FAULTLOG comes from `State.raise`, which gives STATUS the cause's value. -/
theorem causeCodes : Obligations.CauseCodes := by
  intro c s t cause info h hlog
  obtain ⟨hclear, hillegal, u, rfl, hulog, hundef⟩ := (writeCommand_inv h).raised hlog
  refine ⟨recorded_raise hulog hundef cause info, hclear, ?fault, ?code, hillegal⟩
  all_goals rw [State.raise_status]
  case fault => exact statusOf_fault cause
  case code => cases cause <;> decide

end Sys2Proof.Proofs
end

section
/-! PROOFS. The cipher over a schedule (40_feistel_round.md R109, 41_block_decrypt.md R136, 95_test_vectors.md X5): what
its value depends on, its closed form with S-boxes of zero, its inverse; and the schedule, which no command writes (R34). -/

namespace Sys2Proof.Machine

open Sys2Proof.Spec

/-! ## What the cipher depends on (R109, R234) -/

/-- F takes no word of the schedule but those of its S-boxes. -/
theorem roundF_congr {K K' : Nat → Word} (h : ∀ i, 18 ≤ i → i ≤ 1041 → K i = K' i) (w : Word) :
    roundF K w = roundF K' w := by
  have h0 := octet_lt w 0
  have h1 := octet_lt w 1
  have h2 := octet_lt w 2
  have h3 := octet_lt w 3
  rw [roundF, h (786 + octet w 0) (by omega) (by omega), h (530 + octet w 1) (by omega) (by omega),
    h (18 + octet w 3) (by omega) (by omega), h (274 + octet w 2) (by omega) (by omega), roundF]

theorem afterRounds_congr {K K' : Nat → Word} (h : ∀ i, i ≤ 1041 → K i = K' i) (b : Word × Word) :
    afterRounds K b = afterRounds K' b := by
  refine List.foldl_ext _ _ b fun b i hi => ?_
  have hkey := h i ((roundIndices_lt i hi).le.trans (by decide))
  rw [feistelRound, hkey, roundF_congr fun j _ => h j, feistelRound]

theorem decryptF_congr {K K' : Nat → Word} (h : ∀ i, i ≤ 1041 → K i = K' i) (b : Word × Word) :
    decryptF K b = decryptF K' b := by
  rw [decryptF, afterRounds_congr h, h 0 (by decide), h 1 (by decide), decryptF]

/-! ## S-boxes of zero (R136) -/

theorem roundF_of_zeroBoxes {K : Nat → Word} (h : ∀ i, 18 ≤ i → i ≤ 1041 → K i = 0#32) (w : Word) :
    roundF K w = 0#32 := by
  rw [roundF_congr (K' := fun _ => 0#32) h]
  simp [roundF]

/-- A round then only swaps the halves and mixes its key into one of them. -/
theorem feistelRound_of_zeroBoxes {K : Nat → Word} (h : ∀ i, 18 ≤ i → i ≤ 1041 → K i = 0#32) :
    feistelRound K = fun b i => (b.2, K i ^^^ b.1) := by
  funext b i
  rw [feistelRound, roundF_of_zeroBoxes h, BitVec.zero_xor]

theorem decryptF_of_zeroBoxes {K : Nat → Word} (h : ∀ i, 18 ≤ i → i ≤ 1041 → K i = 0#32) (b : Word × Word) :
    decryptF K b = ([0, 16, 14, 12, 10, 8, 6, 4, 2].foldl (fun v i => v ^^^ K i) b.2,
      [1, 17, 15, 13, 11, 9, 7, 5, 3].foldl (fun v i => v ^^^ K i) b.1) := by
  simp only [decryptF, afterRounds, feistelRound_of_zeroBoxes h, roundIndices, List.foldl_cons, List.foldl_nil,
    Prod.mk.injEq]
  constructor
  · ac_rfl
  · ac_rfl

/-! ## Decryption against the reference encryption (X5) -/

/-- The block that a decryption round takes back: its halves crossed, with the keys i + 1 and i mixed in. -/
def crossed (K : Nat → Word) (i : Nat) (b : Word × Word) : Word × Word := (K (i + 1) ^^^ b.2, K i ^^^ b.1)

/-- The key of a decryption round cancels, so F meets the word it met in the encryption round and cancels too. -/
theorem feistelRound_crossed (K : Nat → Word) (i : Nat) (b : Word × Word) :
    feistelRound K (crossed K (i + 1) (feistelRound K b i)) (i + 2) = crossed K i b := by
  have htemp : K (i + 2) ^^^ (K (i + 2) ^^^ (K i ^^^ b.1)) = K i ^^^ b.1 := by
    rw [← BitVec.xor_assoc, BitVec.xor_self, BitVec.zero_xor]
  have hvalue : ∀ f k : Word, f ^^^ (k ^^^ (f ^^^ b.2)) = k ^^^ b.2 := by
    intro f k
    rw [BitVec.xor_comm k, BitVec.xor_assoc, ← BitVec.xor_assoc f, BitVec.xor_self, BitVec.zero_xor, BitVec.xor_comm]
  simp only [feistelRound, crossed, htemp, hvalue]

/-- The decryption rounds from index n + 2 down to 2 take the encryption rounds 0 to n back. -/
theorem foldl_roundIndicesFrom_crossed (K : Nat → Word) (n : Nat) (b : Word × Word) :
    (roundIndicesFrom n).foldl (feistelRound K)
      (crossed K (n + 1) ((List.range (n + 1)).foldl (feistelRound K) b)) = crossed K 0 b := by
  induction n with
  | zero => exact feistelRound_crossed K 0 b
  | succ n ih =>
    rw [roundIndicesFrom, List.foldl_cons, List.range_succ, List.foldl_append, List.foldl_cons, List.foldl_nil,
      feistelRound_crossed, ih]

theorem decryptF_encryptF (K : Nat → Word) (b : Word × Word) : decryptF K (encryptF K b) = b := by
  have hcancel : ∀ k v : Word, k ^^^ (k ^^^ v) = v := fun k v => by
    rw [← BitVec.xor_assoc, BitVec.xor_self, BitVec.zero_xor]
  have hrounds : afterRounds K (encryptF K b) = crossed K 0 b := foldl_roundIndicesFrom_crossed K 15 b
  rw [decryptF, hrounds, crossed, hcancel, hcancel]

/-! ## The block DEC64 stores -/

theorem exec_dec64_block {s : State} {sb ba : Word} (hsb : s.arg0.get? = some sb) (hba : s.arg1.get? = some ba)
    (hchecked : Checked .dec64 s) (hmapped : AllMapped .dec64 s) :
    ∃ t, exec .dec64 s = .next t ∧ blockAt t.mem ba = decryptF (schedule s sb) (blockAt s.mem ba) := by
  have hchecks := dec64Checks_of_checked hsb hba hchecked
  exact ⟨_, exec_dec64_mapped hsb hba hchecks hmapped, blockAt_storeBlock hchecks.block_range s.mem _⟩

/-! ## The checks and the value of ROUND (R107, R209) -/

section
variable {s : State} {sb w : Word} (hsb : s.arg0.get? = some sb) (hw : s.arg1.get? = some w)
include hsb hw

theorem operandPair_round : operandPair .round s = some (sb, w) := by simp [operandPair, hsb, hw]

theorem accesses_round : accesses .round s = roundReads sb w := by
  simp only [accesses, operandPair_round hsb hw]

theorem schedule_of_checked_round (h : Checked .round s) : sb.toNat % 4 = 0 ∧ sb.toNat + 4168 ≤ 2 ^ 32 := by
  have hpair := operandPair_round hsb hw
  obtain ⟨⟨ops, hops, haligned⟩, hinRange, -⟩ := h
  obtain rfl : [sb] = ops := by simpa [addressOperands, hpair] using hops
  simp only [InRange, ranges, hpair, List.forall_mem_singleton] at haligned hinRange
  exact ⟨haligned, hinRange⟩

theorem exec_round_checked (hchecked : Checked .round s) (hmapped : AllMapped .round s) :
    exec .round s = .next ((s.recordAll (roundReads sb w)).completeWith (roundF (schedule s sb) w)) := by
  obtain ⟨haligned, hrange⟩ := schedule_of_checked_round hsb hw hchecked
  rw [AllMapped, accesses_round hsb hw] at hmapped
  exact exec_round_mapped hsb hw haligned hrange hmapped

end

/-! ## The schedule is only read (R34) -/

theorem roundOn_mem (sb w : Word) (s : State) : (roundOn sb w s).mem = s.mem := by
  unfold roundOn
  split_ifs
  · rfl
  · rfl
  · have hmem := feistel_state_mem sb w s
    split <;> rename_i heq <;> rw [heq] at hmem
    · exact hmem
    · exact hmem

/-- DEC64 writes nothing outside its block and leaves nothing else unspecified; past the test for an overlap no byte of
the schedule is in the block. -/
theorem dec64On_keeps_schedule {sb x : Word} (hx : InBytes sb scheduleBytes x) (ba : Word) (s : State) :
    EndsUndefined s (dec64On sb ba s) ∨ (dec64On sb ba s).mem.read x = s.mem.read x := by
  unfold dec64On
  split_ifs with _ _ _ hwrap hoverlap
  · exact .inr rfl
  · exact .inr rfl
  · exact .inr rfl
  · exact .inr rfl
  · exact .inl (.inr rfl)
  · have hrange : ba.toNat + 4 * 2 ≤ 2 ^ 32 := inRange_of_not_rangeWraps hwrap
    have hout : ¬InBytes ba (4 * 2) x := by
      rw [rangesOverlap_iff, blockBytes] at hoverlap
      unfold InBytes at hx ⊢
      omega
    have hwords : ∀ k < 2, x ∉ wordBytes (wordAddress ba k) := fun k hk hmem =>
      hout ((exists_mem_wordBytes_iff hrange).1 ⟨k, hk, hmem⟩)
    have hkeeps : (decryptBlock sb ba s).Keeps s x :=
      decryptBlock_keeps s (wordAddress_zero ba ▸ hwords 0 (by decide)) (add32_four ba ▸ hwords 1 (by decide))
    split <;> rename_i heq <;> rw [heq] at hkeeps
    · exact .inr hkeeps
    · exact .inr ((State.unspecify_read_outside hrange hout).trans hkeeps)

end Sys2Proof.Machine

namespace Sys2Proof.Proofs

open Sys2Proof.Machine Sys2Proof.Spec

/-- Settles O10: the indices of F are all of S-box words. -/
theorem roundDependsOnlyOnSBoxes : Obligations.RoundDependsOnlyOnSBoxes := by
  intro s s' sb sb' w hsb hsb' hw hw' hchecked hchecked' hmapped hmapped' hboxes
  have hexec := exec_round_checked hsb hw hchecked hmapped
  have hexec' := exec_round_checked hsb' hw' hchecked' hmapped'
  exact ⟨_, _, hexec, hexec', congrArg some (roundF_congr hboxes w), rfl, rfl, rfl⟩

/-- Settles O14: with F zero each half passes through eight rounds that only mix in their keys. -/
theorem dec64WithZeroSBoxes : Obligations.Dec64WithZeroSBoxes := by
  intro s sb ba hsb hba hchecked hmapped hzero
  obtain ⟨t, hexec, hblock⟩ := exec_dec64_block hsb hba hchecked hmapped
  rw [decryptF_of_zeroBoxes hzero] at hblock
  exact ⟨t, hexec, Prod.mk.inj hblock⟩

/-- Settles O15: each decryption round takes one encryption round back, from the last one to the first. -/
theorem dec64InvertsEncryption : Obligations.Dec64InvertsEncryption := by
  intro s sb ba l r hsb hba hchecked hmapped hencrypted
  obtain ⟨t, hexec, hblock⟩ := exec_dec64_block hsb hba hchecked hmapped
  rw [blockAt, blockAt, hencrypted, decryptF_encryptF] at hblock
  exact ⟨t, hexec, Prod.mk.inj hblock⟩

/-- Settles O16: the cipher takes no word but K[0] to K[1041] and the block. -/
theorem dec64DependsOnlyOnScheduleAndBlock : Obligations.Dec64DependsOnlyOnScheduleAndBlock := by
  intro s s' sb sb' ba ba' hsb hsb' hba hba' hchecked hchecked' hmapped hmapped' hschedule hleft hright
  obtain ⟨t, hexec, hblock⟩ := exec_dec64_block hsb hba hchecked hmapped
  obtain ⟨t', hexec', hblock'⟩ := exec_dec64_block hsb' hba' hchecked' hmapped'
  have hsame : blockAt s.mem ba = blockAt s'.mem ba' := Prod.ext hleft hright
  rw [hsame, decryptF_congr hschedule, ← hblock'] at hblock
  exact ⟨t, t', hexec, hexec', Prod.mk.inj hblock⟩

/-- Settles O17: ROUND writes nothing, and DEC64 only its block, which the overlap check keeps clear of the schedule. -/
theorem scheduleIsNeverWritten : Obligations.ScheduleIsNeverWritten := by
  intro i s t sb x hi hsb h ht hlow hhigh
  cases hpair : operandPair i s with
  | none =>
    obtain rfl := Host.Outcome.next.inj ((exec_of_operandPair_none hpair).symm.trans h)
    exact absurd (.inl rfl) ht
  | some o =>
    obtain ⟨sb', y⟩ := o
    obtain rfl : sb' = sb := Option.some.inj ((operandPair_eq_some hpair).1.symm.trans hsb)
    obtain ⟨rfl, hexec⟩ | ⟨rfl, hexec⟩ | ⟨mode, count, hform, -⟩ := exec_of_operandPair hpair
    · obtain rfl := Host.Outcome.next.inj (hexec.symm.trans h)
      rw [roundOn_mem]
    · obtain rfl := Host.Outcome.next.inj (hexec.symm.trans h)
      exact (dec64On_keeps_schedule ⟨hlow, hhigh⟩ y s).resolve_left ht
    · rcases hi with rfl | rfl
      · cases hform
      · cases hform

end Sys2Proof.Proofs
end

section
/-! PROOFS. The accesses of the operations: a MOVE repeated (20_memory.md R60), and the first access that is not Mapped
(60_exceptions.md R205, 20_memory.md R58). -/

namespace Sys2Proof.Machine

open Sys2Proof.Spec

/-! ## The bytes of a word that is known (R53) -/

theorem append_inj {v w : Nat} {a c : BitVec v} {b d : BitVec w} (h : a ++ b = c ++ d) : a = c ∧ b = d := by
  have hhigh := congrArg (BitVec.extractLsb' w v) h
  have hlow := congrArg (BitVec.extractLsb' 0 w) h
  rw [BitVec.extractLsb'_append_eq_left, BitVec.extractLsb'_append_eq_left] at hhigh
  rw [BitVec.extractLsb'_append_eq_right, BitVec.extractLsb'_append_eq_right] at hlow
  exact ⟨hhigh, hlow⟩

theorem read_eq_of_readWord_eq {m n : Memory} {a x : Word} (h : n.readWord a = m.readWord a)
    (hx : x ∈ wordBytes a) : n.read x = m.read x := by
  obtain ⟨h', h0⟩ := append_inj h
  obtain ⟨h', h1⟩ := append_inj h'
  obtain ⟨h3, h2⟩ := append_inj h'
  simp only [wordBytes, List.mem_cons, List.not_mem_nil, or_false] at hx
  rcases hx with rfl | rfl | rfl | rfl
  · exact h0
  · exact h1
  · exact h2
  · exact h3

/-! ## A MOVE repeated (R60) -/

section
variable {mode : MoveMode} {src dst : Word} {count : Nat} (h : MoveChecks mode src dst count)
include h

/-- Moving the words leaves every source word as it was. -/
theorem MoveChecks.readWord_source_moved {k : Nat} (hk : k < count) (m : Memory) :
    (movedMemory mode src dst count 0 m).readWord (sourceWord mode src k) = m.readWord (sourceWord mode src k) := by
  rw [sourceWord_eq_sourceAddress]
  exact readWord_congr fun x hx => read_movedMemory_outside (fun j _ hj =>
    wordBytes_disjoint (aligned_sourceAddress h.source_aligned mode k) (aligned_wordAddress h.destination_aligned j)
      (h.source_ne_destination hk (by omega)) hx) m

/-- Moving the words a second time changes no byte: the source words are the same, and so what arrives. -/
theorem MoveChecks.read_moved_moved (m : Memory) (x : Word) :
    (movedMemory mode src dst count 0 (movedMemory mode src dst count 0 m)).read x =
      (movedMemory mode src dst count 0 m).read x := by
  by_cases hx : InBytes dst (4 * count) x
  · obtain ⟨k, hk, hmem⟩ := (exists_mem_wordBytes_iff h.destination_range).2 hx
    rw [← at4_eq_wordAddress] at hmem
    refine read_eq_of_readWord_eq ?_ hmem
    rw [h.readWord_moved hk, h.readWord_moved hk, h.readWord_source_moved hk]
  · exact h.read_moved_outside hx _

end

theorem moveForm_congr {s t : State} (h : t.arg2 = s.arg2) (i : Instr) : moveForm i t = moveForm i s := by
  cases i with
  | move => rw [moveForm, h, moveForm]
  | round | dec64 | moveCopy count | moveFill count => rfl

/-- A MOVE that can complete can do so again, once its argument registers hold the same operands. -/
theorem exec_move_again {i : Instr} {s t : State} {mode : MoveMode} {src dst : Word} {count : Nat}
    (harg0 : t.arg0 = s.arg0) (harg1 : t.arg1 = s.arg1) (harg2 : t.arg2 = s.arg2) (hplatform : t.platform = s.platform)
    (hsrc : s.arg0.get? = some src) (hdst : s.arg1.get? = some dst) (hform : moveForm i s = some (mode, count))
    (hchecks : MoveChecks mode src dst count) (hmapped : AllMapped i s) :
    exec i t = .next ((t.recordAll (moveAccesses mode src dst count)).withMem
      (movedMemory mode src dst count 0 t.mem)).complete := by
  rw [AllMapped, accesses_of_moveForm hsrc hdst hform] at hmapped
  rw [← moveForm_congr harg2] at hform
  rw [← harg0] at hsrc
  rw [← harg1] at hdst
  refine exec_move_mapped hsrc hdst hform hchecks ?_
  rwa [AllMapped, accesses_of_moveForm hsrc hdst hform, hplatform]

/-! ## The first access that is not Mapped (R58, R205) -/

/-- No word of the window is Mapped, at whichever of its byte addresses. -/
theorem mapped_of_window {p : Platform} {base a : Word} (h : p.coreBase = some base) (hlow : base.toNat ≤ a.toNat)
    (hhigh : a.toNat < base.toNat + 0x20) : p.mapped a = false := by
  have hwindow : p.inWindow a = true := by
    simp only [Platform.inWindow, h, Bool.and_eq_true, decide_eq_true_iff]
    unfold wordBase
    omega
  rw [Platform.mapped, hwindow, Bool.not_true, Bool.and_false]

/-- With its checks passed, a command ends in BUS_ERROR at the first of its accesses that is not Mapped, the ones before
it made; MOVE and DEC64 then draw their destination words. -/
theorem exec_bus {i : Instr} {s : State} {made later : List Access} {x : Access} (hchecked : Checked i s)
    (haccesses : accesses i s = made ++ x :: later) (hmade : ∀ y ∈ made, s.platform.mapped y.address = true)
    (hx : s.platform.mapped x.address = false) :
    ∃ m draws, exec i s =
      .next (State.raise { s.recordAll made with mem := m, draws := draws } .busError x.address) := by
  obtain ⟨ops, hops, -⟩ := hchecked.1
  obtain ⟨⟨a, b⟩, hpair, -⟩ := Option.map_eq_some_iff.1 hops
  obtain ⟨ha, hb, -⟩ := operandPair_eq_some hpair
  obtain ⟨rfl, hexec⟩ | ⟨rfl, hexec⟩ | ⟨mode, count, hform, hexec⟩ := exec_of_operandPair hpair
  · obtain ⟨haligned, hrange⟩ := schedule_of_checked_round ha hb hchecked
    rw [accesses_round ha hb] at haccesses
    obtain ⟨j, -, rfl⟩ := List.mem_map.1 (haccesses ▸ List.mem_append_cons_self : x ∈ roundReads a b)
    exact ⟨_, _, exec_round_bus ha hb haligned hrange haccesses hmade hx⟩
  · have hchecks := dec64Checks_of_checked ha hb hchecked
    rw [accesses_dec64 ha hb, ← decryptBlockAccesses_eq_decryptAccesses] at haccesses
    obtain ⟨m, hbus⟩ := (decryptBlock_follows a b s).2 made x later haccesses hmade hx
    have hdisjoint := hchecks.disjoint
    rw [hexec, (dec64On_inRange s hchecks.schedule_aligned hchecks.block_aligned hchecks.schedule_range
      hchecks.block_range).2 (by omega) _ _ hbus]
    exact ⟨_, _, rfl⟩
  · have hchecks := moveChecks_of_checked ha hb hform hchecked
    rw [accesses_of_moveForm ha hb hform, ← moveWordsAccesses_eq_moveAccesses] at haccesses
    obtain ⟨m, hbus⟩ := (moveWords_follows mode a b count 0 s).2 made x later haccesses hmade hx
    rw [hexec, (moveOn_of_moveWords hchecks).2 _ _ hbus]
    exact ⟨_, _, rfl⟩

end Sys2Proof.Machine

namespace Sys2Proof.Proofs

open Sys2Proof.Machine Sys2Proof.Spec

/-- Settles O21: the copy or fill runs again on source words that it did not change. -/
theorem repeatedMoveChangesNothing : Obligations.RepeatedMoveChangesNothing := by
  intro i s mode src dst count hsrc hdst hform hchecked hmapped
  have hchecks := moveChecks_of_checked hsrc hdst hform hchecked
  exact ⟨_, _, exec_move_mapped hsrc hdst hform hchecks hmapped,
    exec_move_again (s := s) rfl rfl rfl rfl hsrc hdst hform hchecks hmapped, hchecks.read_moved_moved s.mem⟩

/-- Settles O25: each operation follows the list of its accesses up to the first that is not Mapped. -/
theorem firstUnmappedAccessRaises : Obligations.FirstUnmappedAccessRaises := by
  constructor
  · intro i s made later x hchecked haccesses hmade hx
    obtain ⟨m, draws, hexec⟩ := exec_bus hchecked haccesses hmade hx
    exact ⟨_, hexec, recorded_raise rfl rfl _ _, rfl, rfl, rfl, rfl⟩
  · intro p base a h hlow hhigh
    exact mapped_of_window h hlow hhigh

end Sys2Proof.Proofs
end

section
/-! PROOFS. The host's own memory accesses (20_memory.md R50-R63; logs 9, 10 and 11): one equation for each way an access
by word or by byte can go, and the statements about what it stores, returns or stops at. -/

namespace Sys2Proof.Machine

open Sys2Proof.Spec

/-! ## Where an access goes (R21, R50, R51) -/

theorem windowOffset_of_inside {p : Platform} {base a : Word} (h : p.coreBase = some base)
    (hlow : base.toNat ≤ a.toNat) (hhigh : a.toNat < base.toNat + 0x20) : p.windowOffset a = some (a - base) := by
  simp [Platform.windowOffset, h, hlow, hhigh]

theorem hostWordMapped_iff {p : Platform} {a : Word} :
    p.hostWordMapped a = true ↔ a.toNat + 4 ≤ 2 ^ 32 ∧ p.mapped a = true ∧ p.mapped (a + 3#32) = true := by
  rw [Platform.hostWordMapped, Bool.and_eq_true, Bool.and_eq_true, decide_eq_true_iff, and_assoc]

/-- An aligned word that is Mapped lies wholly in memory, as all four bytes share its fate (R52). -/
theorem hostWordMapped_of_aligned {p : Platform} {a : Word} (ha : a.toNat % 4 = 0) (h : p.mapped a = true) :
    p.hostWordMapped a = true := by
  have hlt := a.isLt
  have hlast : wordBase (a + 3#32) = wordBase a := wordBase_of_mem_wordBytes ha (by simp [wordBytes])
  exact hostWordMapped_iff.2 ⟨by omega, h, mapped_congr p hlast ▸ h⟩

/-! ## Accesses in a mapped window (R30, log 11) -/

section
variable {s : State} {a offset : Word} (h : s.platform.windowOffset a = some offset)
include h

theorem storeWord_window (v : Word) : storeWord a v s = writeWindow 32 offset v s := by
  simp only [storeWord, h]

theorem loadWord_window : loadWord a s = .next (readWindow 32 offset s) := by
  simp only [loadWord, h]

theorem storeByte_window (b : Byte) : storeByte a b s = .next (refuseWrite s) := by
  simp only [storeByte, h, writeWindow_refused (.inl (by decide : (8 : Nat) ≠ 32))]

theorem loadByte_window : loadByte a s = .next (refuseRead s) := by
  simp only [loadByte, h, readWindow_refused (.inl (by decide : (8 : Nat) ≠ 32))]

end

/-! ## Accesses to memory, and to no memory (R51, logs 9 and 10) -/

section
variable {s : State} {a : Word} (h : s.platform.windowOffset a = none)
include h

theorem storeWord_memory (hm : s.platform.hostWordMapped a = true) (v : Word) :
    storeWord a v s = .next (s.withMem (s.mem.writeWord a v)) := by
  simp only [storeWord, h, hm, if_true]

theorem loadWord_memory (hm : s.platform.hostWordMapped a = true) :
    loadWord a s = .next (s.reply (some (s.mem.readWord a))) := by
  simp only [loadWord, h, hm, if_true]

theorem storeByte_memory (hm : s.platform.mapped a = true) (b : Byte) :
    storeByte a b s = .next (s.withMem (s.mem.write a b)) := by
  simp only [storeByte, h, hm, if_true]

theorem loadByte_memory (hm : s.platform.mapped a = true) :
    loadByte a s = .next (s.reply (some ((s.mem.read a).zeroExtend 32))) := by
  simp only [loadByte, h, hm, if_true]

theorem storeWord_stops (hm : ¬s.platform.hostWordMapped a = true) (v : Word) :
    storeWord a v s = .fault (.hostWriteUnmapped a) := by
  simp only [storeWord, h, if_neg hm]

theorem loadWord_stops (hm : ¬s.platform.hostWordMapped a = true) : loadWord a s = .fault (.hostReadUnmapped a) := by
  simp only [loadWord, h, if_neg hm]

theorem storeByte_stops (hm : s.platform.mapped a = false) (b : Byte) :
    storeByte a b s = .fault (.hostWriteUnmapped a) := by
  simp only [storeByte, h, hm, Bool.false_eq_true, if_false]

theorem loadByte_stops (hm : s.platform.mapped a = false) : loadByte a s = .fault (.hostReadUnmapped a) := by
  simp only [loadByte, h, hm, Bool.false_eq_true, if_false]

end

/-! ## A load after a store (R63) -/

theorem readWord_writeWord_aligned {a b : Word} (ha : a.toNat % 4 = 0) (hb : b.toNat % 4 = 0) (m : Memory) (v : Word) :
    (m.writeWord a v).readWord b = if b = a then v else m.readWord b := by
  split
  · rename_i heq
    rw [heq, readWord_writeWord_self]
  · rename_i hne
    exact readWord_congr fun x hx => read_writeWord_outside _ _ _ _ (wordBytes_disjoint hb ha hne hx)

end Sys2Proof.Machine

namespace Sys2Proof.Proofs

open Sys2Proof.Machine Sys2Proof.Spec

/-- Settles O37: each access is one equation of memory, and a word written is its four bytes. -/
theorem hostWordsAreLittleEndian : Obligations.HostWordsAreLittleEndian := by
  intro s u a v b hwindow hmapped
  refine ⟨fun hfits hlast => ⟨fun h => ?stw, fun h => ?ldw⟩, fun h => ?stb, fun h => ?ldb⟩
  all_goals have hstep := step_of_next h
  all_goals obtain ⟨rest, -, rfl⟩ := next_iff.mp h
  case stw =>
    have hword := hostWordMapped_iff.2 ⟨hfits, hmapped, hlast⟩
    exact ⟨_, hstep.trans (storeWord_memory (s := { s with pending := rest }) hwindow hword v), rfl,
      read_writeWord_byte0 _ a v, read_writeWord_byte1 _ a v,
      read_writeWord_byte2 _ a v, read_writeWord_byte3 _ a v, fun x hx => read_writeWord_outside _ a v x hx⟩
  case ldw =>
    have hword := hostWordMapped_iff.2 ⟨hfits, hmapped, hlast⟩
    exact hstep.trans (loadWord_memory (s := { s with pending := rest }) hwindow hword)
  case stb =>
    exact ⟨_, hstep.trans (storeByte_memory (s := { s with pending := rest }) hwindow hmapped b), rfl,
      Memory.read_write_self _ a b, fun x hx => Memory.read_write_of_ne _ b hx⟩
  case ldb => exact hstep.trans (loadByte_memory (s := { s with pending := rest }) hwindow hmapped)

/-- Settles O38: the two steps store and load at words that are the same or share no byte. -/
theorem loadReturnsTheLastStore : Obligations.LoadReturnsTheLastStore := by
  intro s a b v rest hpending ha hb hwindowA hwindowB hmappedA hmappedB
  have hstore := (step_pending hpending).trans
    (storeWord_memory (s := { s with pending := .ldw b :: rest }) hwindowA (hostWordMapped_of_aligned ha hmappedA) v)
  have hload := (step_pending (s := { s with pending := .ldw b :: rest, mem := s.mem.writeWord a v }) rfl).trans
    (loadWord_memory (s := { s with pending := rest, mem := s.mem.writeWord a v }) hwindowB
      (hostWordMapped_of_aligned hb hmappedB))
  refine ⟨_, (run_next hstore).trans ((run_one _).trans hload), rfl, ?_⟩
  exact congrArg (fun w => s.replies ++ [some w]) (readWord_writeWord_aligned ha hb s.mem v)

/-- Settles O39: the access is to the window where it has an offset there, and otherwise stops unless its bytes are all
memory. -/
theorem hostAccessOutsideMemory : Obligations.HostAccessOutsideMemory := by
  intro s u base a v b
  refine ⟨fun hbase hlow hhigh => ?window, fun hwindow hbyte => ?byte, fun hwindow hword => ?word⟩
  case window =>
    have hwindow := windowOffset_of_inside hbase hlow hhigh
    refine ⟨fun h => ?_, fun h => ?_, fun h => ?_, fun h => ?_⟩
    all_goals have hstep := step_of_next h
    all_goals obtain ⟨rest, -, rfl⟩ := next_iff.mp h
    · exact hstep.trans (storeWord_window (s := { s with pending := rest }) hwindow v)
    · exact hstep.trans (loadWord_window (s := { s with pending := rest }) hwindow)
    · exact hstep.trans (storeByte_window (s := { s with pending := rest }) hwindow b)
    · exact hstep.trans (loadByte_window (s := { s with pending := rest }) hwindow)
  case byte =>
    refine ⟨fun h => ?_, fun h => ?_⟩
    all_goals have hstep := step_of_next h
    all_goals obtain ⟨rest, -, rfl⟩ := next_iff.mp h
    · exact hstep.trans (storeByte_stops (s := { s with pending := rest }) hwindow hbyte b)
    · exact hstep.trans (loadByte_stops (s := { s with pending := rest }) hwindow hbyte)
  case word =>
    have hunmapped : ¬s.platform.hostWordMapped a = true := by
      rw [hostWordMapped_iff]
      rintro ⟨hfits, hfirst, hlast⟩
      rcases hword with hword | hword | hword
      · exact ne_true_of_eq_false hword hfirst
      · exact ne_true_of_eq_false hword hlast
      · omega
    refine ⟨fun h => ?_, fun h => ?_⟩
    all_goals have hstep := step_of_next h
    all_goals obtain ⟨rest, -, rfl⟩ := next_iff.mp h
    · exact hstep.trans (storeWord_stops (s := { s with pending := rest }) hwindow hunmapped v)
    · exact hstep.trans (loadWord_stops (s := { s with pending := rest }) hwindow hunmapped)

end Sys2Proof.Proofs
end
